-- ==== Sys2Proof/Word.lean ====
section
/-! DEFINITION. The two word types of the block: bytes of every stream and 16-bit words of the command interface. -/

namespace Sys2Proof

/-- A byte of a payload, of OUT, or of the command and response streams (R8, R22, R52). -/
abbrev Byte := BitVec 8

/-- A 16-bit command, length, response, STAT or payload header word, in word numbering (R10, R45, R53, R58). -/
abbrev Word := BitVec 16

end Sys2Proof
end

