-- ==== Sys2Proof/Syntax.lean ====
section
/-! DEFINITION. The instruction syntax: one constructor for each row of spec/opcode_table.json, the five commands of the
command stream (R54) and the 32 frame-type decodes of the payload header word (R45). -/

namespace Sys2Proof

/-- The codec variants: NarrowBand (AMR) and WideBand (AMR-WB), R3. -/
inductive Variant where
  | nb
  | wb
deriving DecidableEq, Repr

/-- What the payload header word HW holds beside the frame type (R43, R45): the CMR field HW[15:12], the reserved bit
HW[11], the quality bit Q = HW[6], and the first six speech bits HW[5:0]. -/
structure FrameHeader where
  cmr  : BitVec 4
  rsv  : BitVec 1
  q    : BitVec 1
  lead : BitVec 6
deriving DecidableEq, Repr

/-- The rows of the opcode table. A variant operand `v` is the 2-bit code of R57, invalid codes included; `p` is the
payload that follows a command's length word (R56). -/
inductive Instr where
  /-- BEGIN (R84). -/
  | beginRun (v : BitVec 2)
  /-- SUBMIT (R86). -/
  | submit (p : List Byte)
  /-- LOOKUP (R68). -/
  | lookup (v : BitVec 2) (ft : BitVec 4)
  /-- TRANSCODE (R82). -/
  | transcode (v : BitVec 2) (p : List Byte)
  /-- STATUS (R90). -/
  | status
  /-- FT0_NB: header word with frame type 0 under NarrowBand: 95 speech bits (R79). -/
  | ft0Nb (h : FrameHeader)
  /-- FT1_NB: header word with frame type 1 under NarrowBand: 103 speech bits (R79). -/
  | ft1Nb (h : FrameHeader)
  /-- FT2_NB: header word with frame type 2 under NarrowBand: 118 speech bits (R79). -/
  | ft2Nb (h : FrameHeader)
  /-- FT3_NB: header word with frame type 3 under NarrowBand: 134 speech bits (R79). -/
  | ft3Nb (h : FrameHeader)
  /-- FT4_NB: header word with frame type 4 under NarrowBand: 148 speech bits (R79). -/
  | ft4Nb (h : FrameHeader)
  /-- FT5_NB: header word with frame type 5 under NarrowBand: 159 speech bits (R79). -/
  | ft5Nb (h : FrameHeader)
  /-- FT6_NB: header word with frame type 6 under NarrowBand: 204 speech bits (R79). -/
  | ft6Nb (h : FrameHeader)
  /-- FT7_NB: header word with frame type 7 under NarrowBand: 244 speech bits (R79). -/
  | ft7Nb (h : FrameHeader)
  /-- FT8_NB: header word with frame type 8 under NarrowBand: 39 speech bits (R79). -/
  | ft8Nb (h : FrameHeader)
  /-- FT9_NB: header word with frame type 9 under NarrowBand: no table entry, skipped (R73). -/
  | ft9Nb (h : FrameHeader)
  /-- FT10_NB: header word with frame type 10 under NarrowBand: no table entry, skipped (R73). -/
  | ft10Nb (h : FrameHeader)
  /-- FT11_NB: header word with frame type 11 under NarrowBand: no table entry, skipped (R73). -/
  | ft11Nb (h : FrameHeader)
  /-- FT12_NB: header word with frame type 12 under NarrowBand: no table entry, skipped (R73). -/
  | ft12Nb (h : FrameHeader)
  /-- FT13_NB: header word with frame type 13 under NarrowBand: no table entry, skipped (R73). -/
  | ft13Nb (h : FrameHeader)
  /-- FT14_NB: header word with frame type 14 under NarrowBand: no table entry, skipped (R73). -/
  | ft14Nb (h : FrameHeader)
  /-- FT15_NB: header word with frame type 15 under NarrowBand: no table entry, skipped (R73). -/
  | ft15Nb (h : FrameHeader)
  /-- FT0_WB: header word with frame type 0 under WideBand: 132 speech bits (R79). -/
  | ft0Wb (h : FrameHeader)
  /-- FT1_WB: header word with frame type 1 under WideBand: 177 speech bits (R79). -/
  | ft1Wb (h : FrameHeader)
  /-- FT2_WB: header word with frame type 2 under WideBand: 253 speech bits (R79). -/
  | ft2Wb (h : FrameHeader)
  /-- FT3_WB: header word with frame type 3 under WideBand: 285 speech bits (R79). -/
  | ft3Wb (h : FrameHeader)
  /-- FT4_WB: header word with frame type 4 under WideBand: 317 speech bits (R79). -/
  | ft4Wb (h : FrameHeader)
  /-- FT5_WB: header word with frame type 5 under WideBand: 365 speech bits (R79). -/
  | ft5Wb (h : FrameHeader)
  /-- FT6_WB: header word with frame type 6 under WideBand: 397 speech bits (R79). -/
  | ft6Wb (h : FrameHeader)
  /-- FT7_WB: header word with frame type 7 under WideBand: 461 speech bits (R79). -/
  | ft7Wb (h : FrameHeader)
  /-- FT8_WB: header word with frame type 8 under WideBand: 477 speech bits (R79). -/
  | ft8Wb (h : FrameHeader)
  /-- FT9_WB: header word with frame type 9 under WideBand: 40 speech bits (R79). -/
  | ft9Wb (h : FrameHeader)
  /-- FT10_WB: header word with frame type 10 under WideBand: no table entry, skipped (R73). -/
  | ft10Wb (h : FrameHeader)
  /-- FT11_WB: header word with frame type 11 under WideBand: no table entry, skipped (R73). -/
  | ft11Wb (h : FrameHeader)
  /-- FT12_WB: header word with frame type 12 under WideBand: no table entry, skipped (R73). -/
  | ft12Wb (h : FrameHeader)
  /-- FT13_WB: header word with frame type 13 under WideBand: no table entry, skipped (R73). -/
  | ft13Wb (h : FrameHeader)
  /-- FT14_WB: header word with frame type 14 under WideBand: no table entry, skipped (R73). -/
  | ft14Wb (h : FrameHeader)
  /-- FT15_WB: header word with frame type 15 under WideBand: no table entry, skipped (R73). -/
  | ft15Wb (h : FrameHeader)
deriving DecidableEq, Repr

end Sys2Proof
end

