-- ==== Sys2Proof/WellFormed.lean ====
section
/-! DEFINITION. Which instructions the encoding can hold. Every operand's range is its type but one: a payload's length
must fit the 16-bit length word LEN (R56). -/

namespace Sys2Proof

/-- A payload that LEN can announce: 0 to 65535 bytes (R27, R56). -/
def payloadFits (p : List Byte) : Bool :=
  decide (p.length ≤ 65535)

/-- Whether the instruction is one the command interface can express. -/
def Instr.wellFormed : Instr → Bool
  | .submit p => payloadFits p
  | .transcode _ p => payloadFits p
  | _ => true

/-- Whether the row is a command of the command stream (R54), and not a frame-type decode of a payload header. -/
def Instr.isCommand : Instr → Bool
  | .beginRun _ => true
  | .submit _ => true
  | .lookup _ _ => true
  | .transcode _ _ => true
  | .status => true
  | _ => false

end Sys2Proof
end

