-- ==== Sys2Proof/Decode.lean ====
section
/-! DEFINITION. The encodings: byte order of words (R52), the command word (R53 to R57), the payload header word (R45), the
decoder of the command stream, the decoder of a payload's frame type, and the encoder written from the same tables. -/

namespace Sys2Proof

/-! ### Words in the byte streams (R52) -/

/-- The two bytes of a word, most significant byte first (R52). -/
def wordBytes (w : Word) : List Byte :=
  [w.extractLsb' 8 8, w.extractLsb' 0 8]

/-- The word that two consecutive stream bytes form (R52; for a payload's first two bytes, R45). -/
def wordOfBytes (b0 b1 : Byte) : Word :=
  b0 ++ b1

/-! ### Command word fields (R53) -/

/-- OP = CW[15:12]. -/
def cwOp (cw : Word) : BitVec 4 :=
  cw.extractLsb' 12 4

/-- V = CW[11:10]. -/
def cwVariant (cw : Word) : BitVec 2 :=
  cw.extractLsb' 10 2

/-- RSV = CW[9:4]. -/
def cwReserved (cw : Word) : BitVec 6 :=
  cw.extractLsb' 4 6

/-- FTQ = CW[3:0]. -/
def cwFrameType (cw : Word) : BitVec 4 :=
  cw.extractLsb' 0 4

/-- The command word with these fields (R53). -/
def commandWord (op : BitVec 4) (v : BitVec 2) (ft : BitVec 4) : Word :=
  op ++ v ++ 0#6 ++ ft

/-- Whether a length word and a payload follow this command word: OP 0x2 and OP 0x4, whatever the other fields (R56). -/
def takesPayload (cw : Word) : Bool :=
  cwOp cw == 0x2#4 || cwOp cw == 0x4#4

/-- Whether the command word is legal, row by row of R55. -/
def legalCommand (cw : Word) : Bool :=
  match (cwOp cw).toNat with
  | 1 => cwReserved cw == 0 && cwFrameType cw == 0
  | 2 => cwVariant cw == 0 && cwReserved cw == 0 && cwFrameType cw == 0
  | 3 => cwReserved cw == 0
  | 4 => cwReserved cw == 0 && cwFrameType cw == 0
  | 5 => cwVariant cw == 0 && cwReserved cw == 0 && cwFrameType cw == 0
  | _ => false

/-- The command a command word spells, with the payload that follows it (empty for a one-word command), R54 and R55. -/
def commandOf (cw : Word) (p : List Byte) : Option Instr :=
  if legalCommand cw then
    match (cwOp cw).toNat with
    | 1 => some (.beginRun (cwVariant cw))
    | 2 => some (.submit p)
    | 3 => some (.lookup (cwVariant cw) (cwFrameType cw))
    | 4 => some (.transcode (cwVariant cw) p)
    | 5 => some .status
    | _ => none
  else none

/-! ### The command stream (R52, R56, R62) -/

/-- What the decoder finds at the front of the command stream: a legal command and the bytes after it; an illegal command
word (R55), rejected by name, with the bytes after it and its payload; or too few bytes for a whole command. -/
inductive Fetched where
  | command (i : Instr) (rest : List Byte)
  | illegal (cw : Word) (rest : List Byte)
  | incomplete
deriving DecidableEq, Repr

/-- Sorts a command whose bytes are all there into legal and illegal (R55). -/
def fetchedCommand (cw : Word) (p rest : List Byte) : Fetched :=
  match commandOf cw p with
  | some i => .command i rest
  | none => .illegal cw rest

/-- The length word and the LEN payload bytes that follow a command word of OP 0x2 or 0x4, legal or not (R56). -/
def fetchPayload (cw : Word) : List Byte → Fetched
  | l0 :: l1 :: more =>
    if (wordOfBytes l0 l1).toNat ≤ more.length then
      fetchedCommand cw (more.take (wordOfBytes l0 l1).toNat) (more.drop (wordOfBytes l0 l1).toNat)
    else .incomplete
  | _ => .incomplete

/-- The decoder of the command stream: a command is 2 bytes, or 4 + LEN bytes for OP 0x2 and 0x4 (R56, R62). -/
def decode : List Byte → Fetched
  | b0 :: b1 :: rest =>
    if takesPayload (wordOfBytes b0 b1) then fetchPayload (wordOfBytes b0 b1) rest
    else fetchedCommand (wordOfBytes b0 b1) [] rest
  | _ => .incomplete

/-! ### The payload header word (R45) -/

/-- FT = HW[10:7]. -/
def hwFrameType (hw : Word) : BitVec 4 :=
  hw.extractLsb' 7 4

/-- The other fields of HW: CMR = HW[15:12], reserved = HW[11], Q = HW[6], first speech bits HW[5:0]. -/
def hwHeader (hw : Word) : FrameHeader :=
  { cmr := hw.extractLsb' 12 4, rsv := hw.extractLsb' 11 1, q := hw.extractLsb' 6 1, lead := hw.extractLsb' 0 6 }

/-- The header word with this frame type and these other fields (R45). -/
def headerWord (ft : BitVec 4) (h : FrameHeader) : Word :=
  h.cmr ++ h.rsv ++ ft ++ h.q ++ h.lead

/-- The row of the opcode table for a variant and a frame type: mask 0x0780, match FT << 7 over HW (R45). -/
def frameTypeRow (v : Variant) (ft : BitVec 4) (h : FrameHeader) : Instr :=
  match v with
  | .nb =>
    match ft.toNat with
    | 0 => .ft0Nb h
    | 1 => .ft1Nb h
    | 2 => .ft2Nb h
    | 3 => .ft3Nb h
    | 4 => .ft4Nb h
    | 5 => .ft5Nb h
    | 6 => .ft6Nb h
    | 7 => .ft7Nb h
    | 8 => .ft8Nb h
    | 9 => .ft9Nb h
    | 10 => .ft10Nb h
    | 11 => .ft11Nb h
    | 12 => .ft12Nb h
    | 13 => .ft13Nb h
    | 14 => .ft14Nb h
    | _ => .ft15Nb h
  | .wb =>
    match ft.toNat with
    | 0 => .ft0Wb h
    | 1 => .ft1Wb h
    | 2 => .ft2Wb h
    | 3 => .ft3Wb h
    | 4 => .ft4Wb h
    | 5 => .ft5Wb h
    | 6 => .ft6Wb h
    | 7 => .ft7Wb h
    | 8 => .ft8Wb h
    | 9 => .ft9Wb h
    | 10 => .ft10Wb h
    | 11 => .ft11Wb h
    | 12 => .ft12Wb h
    | 13 => .ft13Wb h
    | 14 => .ft14Wb h
    | _ => .ft15Wb h

/-- The frame-type decode of a payload under a variant; none when the payload has no whole header word (R45, R71). -/
def decodeHeader (v : Variant) : List Byte → Option Instr
  | b0 :: b1 :: _ => some (frameTypeRow v (hwFrameType (wordOfBytes b0 b1)) (hwHeader (wordOfBytes b0 b1)))
  | _ => none

/-! ### The encoder -/

/-- The stream bytes of an instruction: a command's words and payload (R53, R56), or a frame-type row's header word (R45). -/
def encode : Instr → List Byte
  | .beginRun v => wordBytes (commandWord 0x1#4 v 0)
  | .submit p => wordBytes (commandWord 0x2#4 0 0) ++ wordBytes (BitVec.ofNat 16 p.length) ++ p
  | .lookup v ft => wordBytes (commandWord 0x3#4 v ft)
  | .transcode v p => wordBytes (commandWord 0x4#4 v 0) ++ wordBytes (BitVec.ofNat 16 p.length) ++ p
  | .status => wordBytes (commandWord 0x5#4 0 0)
  | .ft0Nb h => wordBytes (headerWord 0#4 h)
  | .ft1Nb h => wordBytes (headerWord 1#4 h)
  | .ft2Nb h => wordBytes (headerWord 2#4 h)
  | .ft3Nb h => wordBytes (headerWord 3#4 h)
  | .ft4Nb h => wordBytes (headerWord 4#4 h)
  | .ft5Nb h => wordBytes (headerWord 5#4 h)
  | .ft6Nb h => wordBytes (headerWord 6#4 h)
  | .ft7Nb h => wordBytes (headerWord 7#4 h)
  | .ft8Nb h => wordBytes (headerWord 8#4 h)
  | .ft9Nb h => wordBytes (headerWord 9#4 h)
  | .ft10Nb h => wordBytes (headerWord 10#4 h)
  | .ft11Nb h => wordBytes (headerWord 11#4 h)
  | .ft12Nb h => wordBytes (headerWord 12#4 h)
  | .ft13Nb h => wordBytes (headerWord 13#4 h)
  | .ft14Nb h => wordBytes (headerWord 14#4 h)
  | .ft15Nb h => wordBytes (headerWord 15#4 h)
  | .ft0Wb h => wordBytes (headerWord 0#4 h)
  | .ft1Wb h => wordBytes (headerWord 1#4 h)
  | .ft2Wb h => wordBytes (headerWord 2#4 h)
  | .ft3Wb h => wordBytes (headerWord 3#4 h)
  | .ft4Wb h => wordBytes (headerWord 4#4 h)
  | .ft5Wb h => wordBytes (headerWord 5#4 h)
  | .ft6Wb h => wordBytes (headerWord 6#4 h)
  | .ft7Wb h => wordBytes (headerWord 7#4 h)
  | .ft8Wb h => wordBytes (headerWord 8#4 h)
  | .ft9Wb h => wordBytes (headerWord 9#4 h)
  | .ft10Wb h => wordBytes (headerWord 10#4 h)
  | .ft11Wb h => wordBytes (headerWord 11#4 h)
  | .ft12Wb h => wordBytes (headerWord 12#4 h)
  | .ft13Wb h => wordBytes (headerWord 13#4 h)
  | .ft14Wb h => wordBytes (headerWord 14#4 h)
  | .ft15Wb h => wordBytes (headerWord 15#4 h)

/-! ### The opcode table's numbering of bits -/

/-- Byte `i` of a stream of 16-bit words, most significant byte first, whose bits are `w` in the opcode table's numbering. -/
def tableByte (w i : Nat) : Byte :=
  BitVec.ofNat 8 (w >>> (16 * (i / 2) + (if i % 2 = 0 then 8 else 0)))

/-- The command whose bits are `w`, as the command stream carries it: one word, or command word, LEN and payload (R62). -/
def tableCommand (nbits w : Nat) : List Byte :=
  let bits := w % 2 ^ nbits
  let len := if takesPayload (BitVec.ofNat 16 bits) then 4 + (bits >>> 16) % 65536 else 2
  (List.range len).map (tableByte bits)

/-- The payload whose header word is `w`, followed by zeros up to the 61 bytes that can matter (R80). -/
def tablePayload (nbits w : Nat) : List Byte :=
  (List.range 61).map (tableByte (w % 2 ^ nbits))

/-- What the decoders read from an instruction of the opcode table: a legal command word is that command; any other word is
read as a payload header word, under the variant code that VARIANT has at reset, 00 NarrowBand (DESIGN CHOICE, log entry 7:
the FT<k>_NB and FT<k>_WB rows have the same words, and only the run's variant tells them apart). -/
def decodeTableWord (nbits w : Nat) : Option Instr :=
  match decode (tableCommand nbits w) with
  | .command i _ => some i
  | .illegal _ _ => decodeHeader .nb (tablePayload nbits w)
  | .incomplete => decodeHeader .nb (tablePayload nbits w)

end Sys2Proof
end

