-- ==== Sys2Proof/Config.lean ====
section
/-! DEFINITION. What the environment decides and the spec leaves open: the parameter SINK (R7, decision D10). The other
OPEN parameter, IF_TIMING, is read by no rule and has no counterpart here. -/

namespace Sys2Proof

/-- The sink's answer to one append (R38). `fail k`: the sink reports failure after taking `k` bytes of the append; a `k`
above the append's length means all of it, so that exactly the prefixes of R34 are covered. -/
inductive SinkAnswer where
  | ok
  | fail (k : Nat)
deriving DecidableEq, Repr, Inhabited

/-- FREE VALUE (log entry 2): the answer to the append of this number, where State's `sinkScript` names none (R34, D10). -/
opaque Config.sinkAnswer : Nat → SinkAnswer

/-- FREE VALUE (log entry 3): the bytes the destination holds after the append of this number failed (R93 leaves it open). -/
opaque Config.sinkFileAfterFailure : Nat → List Byte

end Sys2Proof
end

