-- ==== Sys2Proof/Machine/State.lean ====
section
/-! DEFINITION. The state of the block, as plain data: the fields of 10_state.md, the transient datapath (R24), and the
environment's streams that the step reads and writes (R25, R52). The words' codes are in Machine/Flags.lean. -/

namespace Sys2Proof.Machine

/-- PHASE (R16): IDLE, OPEN (`opened`) and HALTED. The code 11 is never held, so it has no constructor. -/
inductive Phase where
  | idle
  | opened
  | halted
deriving DecidableEq, Repr

/-- The status codes of R59 that are ever held or returned; `noCommand` is NONE, LAST_STATUS's reset value. -/
inductive Status where
  | ok
  | skipped
  | failed
  | invalidVariant
  | sinkUnavailable
  | sequence
  | halted
  | illegalCmd
  | noCommand
deriving DecidableEq, Repr

/-- HALT_CAUSE (R19): `notHalted` is 0x0. -/
inductive HaltCause where
  | notHalted
  | invalidVariant
  | sinkUnavailable
deriving DecidableEq, Repr

/-- The command a payload in the datapath belongs to: SUBMIT or TRANSCODE (R86, R82). -/
inductive Client where
  | submit
  | transcode
deriving DecidableEq, Repr

/-- What the datapath holds within one command (R24): the command, the variant it uses, and its payload. The parsed fields,
the bit length and the frame are computed from these ("Derived fields only; never stored", R72). -/
structure Datapath where
  client  : Client
  variant : Variant
  payload : List Byte
deriving DecidableEq, Repr

/-- Everything the machine holds between two steps. -/
structure State where
  /-- PHASE (R16). -/
  phase      : Phase
  /-- VARIANT (R17); an invalid code is never stored. -/
  variant    : Variant
  /-- LAST_STATUS (R18). -/
  lastStatus : Status
  /-- HALT_CAUSE (R19). -/
  haltCause  : HaltCause
  /-- OUT (R22). -/
  out        : List Byte
  /-- The transient datapath (R24): none between commands. -/
  datapath   : Option Datapath
  /-- The bytes of the command stream not yet read (R52; an input, R25; log entry 1). -/
  input      : List Byte
  /-- The command bytes the host sends after each reset still to come, in order (R113; log entry 4). -/
  laterRuns  : List (List Byte)
  /-- The bytes of the response stream sent so far (R52, R58; log entries 1 and 15). -/
  responses  : List Byte
  /-- The bytes the sink's destination holds (R38, R114; log entry 3). -/
  sinkFile   : List Byte
  /-- The answers the sink gives to the next appends (R34, R38); after them, `Config.sinkAnswer` (log entry 2). -/
  sinkScript : List SinkAnswer
  /-- How many appends have been attempted: indexes the sink's free values (log entry 2). -/
  sinkDraws  : Nat
deriving DecidableEq, Repr

/-- Why a step can stop. No rule of the spec stops the block; `step` never answers a fault. -/
inductive Fault where
  /-- Raised by the meaning of a frame-type row executed with no payload in the datapath. The spec describes the frame-type
  decode only within a SUBMIT or TRANSCODE (R24, R72). SAFE: the model stops where the spec describes no behaviour (log
  entry 9). -/
  | frameTypeOutsideCommand
deriving DecidableEq, Repr

/-- Why an instruction can have no meaning. Every row of the opcode table has one. -/
inductive Refusal where
  /-- An instruction with no meaning yet. Raised by no arm of exec. SAFE: the model stops. -/
  | notModelled (mnemonic : String)
deriving DecidableEq, Repr

/-- The machine right after reset (R26, R113): PHASE IDLE, VARIANT 00, LAST_STATUS NONE, HALT_CAUSE 0x0, OUT empty, no
command in progress. The environment's fields are empty: DESIGN CHOICE, log entry 10. -/
def State.reset : State where
  phase := .idle
  variant := .nb
  lastStatus := .noCommand
  haltCause := .notHalted
  out := []
  datapath := none
  input := []
  laterRuns := []
  responses := []
  sinkFile := []
  sinkScript := []
  sinkDraws := 0

end Sys2Proof.Machine
end

