-- ==== Sys2Proof/Machine/Flags.lean ====
section
/-! DEFINITION. The block's condition codes: the codes of the status, phase, variant and halt cause fields, the response
word (R58) and the STAT word (R20). No other flag exists (R21). -/

namespace Sys2Proof.Machine

/-- The code of PHASE (R16). -/
def Phase.code : Phase → BitVec 2
  | .idle => 0b00#2
  | .opened => 0b01#2
  | .halted => 0b10#2

/-- The code of VARIANT (R17, R57). -/
def variantCode : Variant → BitVec 2
  | .nb => 0b00#2
  | .wb => 0b01#2

/-- The status codes (R59). -/
def Status.code : Status → BitVec 4
  | .ok => 0x0#4
  | .skipped => 0x1#4
  | .failed => 0x2#4
  | .invalidVariant => 0x3#4
  | .sinkUnavailable => 0x4#4
  | .sequence => 0x5#4
  | .halted => 0x6#4
  | .illegalCmd => 0x7#4
  | .noCommand => 0xF#4

/-- The code of HALT_CAUSE: the status code of the fatal error, 0x0 outside HALTED (R19). -/
def HaltCause.code : HaltCause → BitVec 4
  | .notHalted => 0x0#4
  | .invalidVariant => 0x3#4
  | .sinkUnavailable => 0x4#4

/-- The response word: RW[15:12] STATUS, RW[11:9] = 0, RW[8:0] DATA (R58; log entry 23). -/
def responseWord (st : Status) (data : Nat) : Word :=
  st.code ++ 0#3 ++ BitVec.ofNat 9 data

/-- The STAT word: [3:0] LAST_STATUS, [5:4] PHASE, [7:6] VARIANT, [11:8] HALT_CAUSE, [15:12] reads 0 (R20). -/
def statWord (s : State) : Word :=
  0#4 ++ s.haltCause.code ++ variantCode s.variant ++ s.phase.code ++ s.lastStatus.code

end Sys2Proof.Machine
end

