-- ==== Sys2Proof/Machine/CodecRom.lean ====
section
/-! DEFINITION. The block's constants: the codec ROM (R23, R65, R66) and the magic headers (R50). They are the configuration
constants of I2 (log entry 13): named here, and read nowhere but through `rom` and `magic`. -/

namespace Sys2Proof.Machine

/-- The NarrowBand table: speech bits for FT 0 to 8 (R66). -/
def nbTable : List Nat :=
  [95, 103, 118, 134, 148, 159, 204, 244, 39]

/-- The WideBand table: speech bits for FT 0 to 9 (R66). -/
def wbTable : List Nat :=
  [132, 177, 253, 285, 317, 365, 397, 461, 477, 40]

/-- ROM(v, ft): the speech-bit count, or absent for a code past the table (R65, R66). -/
def rom (v : Variant) (ft : BitVec 4) : Option Nat :=
  match v with
  | .nb => nbTable[ft.toNat]?
  | .wb => wbTable[ft.toNat]?

/-- The magic header: the ASCII bytes of "#!AMR" or "#!AMR-WB" and a line feed, 6 or 9 bytes (R50, conflict C1; log
entry 19). -/
def magic : Variant → List Byte
  | .nb => [0x23, 0x21, 0x41, 0x4D, 0x52, 0x0A]
  | .wb => [0x23, 0x21, 0x41, 0x4D, 0x52, 0x2D, 0x57, 0x42, 0x0A]

end Sys2Proof.Machine
end

