-- ==== Sys2Proof/Machine/Operands.lean ====
section
/-! DEFINITION. The operand forms: variant codes (R57), payload stream bits and fields (R8, R9), and the parsed fields of a
payload header (R43, R72). -/

namespace Sys2Proof.Machine

/-- The variant a 2-bit code names: 00 NarrowBand, 01 WideBand, 10 and 11 none (R57). -/
def variantOf (v : BitVec 2) : Option Variant :=
  match v.toNat with
  | 0 => some .nb
  | 1 => some .wb
  | _ => none

/-- L(P), the payload's length in bits (R8). -/
def bitLength (p : List Byte) : Nat :=
  8 * p.length

/-- Stream bit `i`, numbered from the most significant bit of the first byte (R8). No rule reads a bit at or after L(P)
(R28); there the function answers false (log entry 11). -/
def pbit (p : List Byte) (i : Nat) : Bool :=
  (p.getD (i / 8) 0).getLsbD (7 - i % 8)

/-- The unsigned integer in stream bits [a, a+n), first bit most significant (R9). -/
def field (p : List Byte) (a n : Nat) : Nat :=
  ((List.range n).map fun k => (pbit p (a + k)).toNat <<< (n - 1 - k)).sum

/-- CMR, stream bits [0,4): read and ignored (R43, R72). -/
def payloadCmr (p : List Byte) : BitVec 4 :=
  BitVec.ofNat 4 (field p 0 4)

/-- The reserved bit, stream bit 4: ignored (R43, R72). -/
def payloadReserved (p : List Byte) : BitVec 1 :=
  BitVec.ofBool (pbit p 4)

/-- FT, stream bits [5,9) (R43, R72). -/
def payloadFrameType (p : List Byte) : BitVec 4 :=
  BitVec.ofNat 4 (field p 5 4)

/-- Q, stream bit 9 (R43, R72). -/
def payloadQuality (p : List Byte) : BitVec 1 :=
  BitVec.ofBool (pbit p 9)

/-- The n speech bits, stream bits [10, 10+n) in order (R75, R79). -/
def speechBits (p : List Byte) (n : Nat) : List Bool :=
  (List.range n).map fun k => pbit p (10 + k)

end Sys2Proof.Machine
end

