-- ==== Sys2Proof/Machine/FramePath.lean ====
section
/-! DEFINITION. The frame transcoder as a pure function of the variant and one payload (R70 to R81): frame-type validator,
speech extractor, octet aligner, header byte, frame. The model's function follows R79 bit by bit; the byte form of the
barrel shifter and the aligner (R75, R76) stands beside it. -/

namespace Sys2Proof.Machine

/-- The three outcomes of the transcoder (R70). -/
inductive TranscodeResult where
  | accepted (f : List Byte)
  | skipped
  | failed
deriving DecidableEq, Repr

/-- ceil(n / 8): how many bytes n speech bits take (R11, R49). -/
def speechBytes (n : Nat) : Nat :=
  (n + 7) / 8

/-- The pad bits of n speech bits: (8 - n mod 8) mod 8 (R76). -/
def padBits (n : Nat) : Nat :=
  (8 - n % 8) % 8

/-- The byte whose bits, most significant first, are `b 0` to `b 7`. -/
def byteOfBits (b : Nat → Bool) : Byte :=
  BitVec.ofBool (b 0) ++ BitVec.ofBool (b 1) ++ BitVec.ofBool (b 2) ++ BitVec.ofBool (b 3) ++
    BitVec.ofBool (b 4) ++ BitVec.ofBool (b 5) ++ BitVec.ofBool (b 6) ++ BitVec.ofBool (b 7)

/-- pack(s): a bit sequence as bytes, first bit as the most significant bit of the first byte (R11). -/
def pack (bits : List Bool) : List Byte :=
  (List.range (bits.length / 8)).map fun j => byteOfBits fun m => bits.getD (8 * j + m) false

/-- The storage header byte h = (FT << 3) | (Q << 2) (R48, R77). -/
def headerByte (ft : BitVec 4) (q : BitVec 1) : Byte :=
  (ft.setWidth 8 <<< 3) ||| (q.setWidth 8 <<< 2)

/-- The storage frame: the header byte and the speech bits padded with zeros to a byte (R76, R78, R79). -/
def storageFrame (ft : BitVec 4) (q : BitVec 1) (n : Nat) (p : List Byte) : List Byte :=
  headerByte ft q :: pack (speechBits p n ++ List.replicate (padBits n) false)

/-- The transcoder from the frame-type validator on, for a payload whose header has been parsed (R73, R74, R78). -/
def frameTypeResult (v : Variant) (ft : BitVec 4) (q : BitVec 1) (p : List Byte) : TranscodeResult :=
  match rom v ft with
  | none => .skipped
  | some n => if bitLength p < 10 + n then .failed else .accepted (storageFrame ft q n p)

/-- transcode(v, P) (R79): the header length check first (R71), then the header parser (R72) and the rest. -/
def transcode (v : Variant) (p : List Byte) : TranscodeResult :=
  if bitLength p < 10 then .failed
  else frameTypeResult v (payloadFrameType p) (payloadQuality p) p

/-! ### The byte form of the extractor and the aligner -/

/-- Pz(i): the payload byte, zero beyond the payload (R75). -/
def paddedByte (p : List Byte) (i : Nat) : Byte :=
  p.getD i 0

/-- S_raw[j]: the payload shifted left by 10 bit positions (R75). -/
def shiftedByte (p : List Byte) (j : Nat) : Byte :=
  (paddedByte p (j + 1) <<< 2) ||| (paddedByte p (j + 2) >>> 6)

/-- S: the shifted bytes with the low pad bits of the last one cleared (R76). -/
def alignedSpeech (p : List Byte) (n : Nat) : List Byte :=
  (List.range (speechBytes n)).map fun j =>
    if j + 1 = speechBytes n then shiftedByte p j &&& (0xFF#8 <<< padBits n) else shiftedByte p j

end Sys2Proof.Machine
end

