-- ==== Sys2Proof/Machine/Ops.lean ====
section
/-! DEFINITION. The named operations on the state: responding with a status, the fatal halt, the append to the sink, the end
of a payload command, the illegal command, waiting and reset. An error of this block has no trap entry (R101): it is a status
in the response word and LAST_STATUS, and for a fatal error the halt of R100. -/

namespace Sys2Proof.Machine

/-! ### Responses -/

/-- `status <- st` and the response word with this DATA: LAST_STATUS and RW (R12, R18, R58). -/
def State.respond (st : Status) (data : Nat) (s : State) : State :=
  { s with lastStatus := st, responses := s.responses ++ wordBytes (responseWord st data) }

/-- The response of a legal STATUS: the STAT word; LAST_STATUS is not written (R90). -/
def State.respondStat (s : State) : State :=
  { s with responses := s.responses ++ wordBytes (statWord s) }

/-- Further response bytes, first byte first: the frame after a TRANSCODE's RW (R52, R60). -/
def State.sendBytes (f : List Byte) (s : State) : State :=
  { s with responses := s.responses ++ f }

/-- An illegal command: LAST_STATUS 0x7 and the response 0x7000, nothing else (R55). -/
def State.illegalCommand (s : State) : State :=
  s.respond .illegalCmd 0

/-! ### The fatal halt -/

/-- halt(cause): PHASE HALTED and HALT_CAUSE the cause (R100). -/
def State.halt (cause : HaltCause) (s : State) : State :=
  { s with phase := .halted, haltCause := cause }

/-- InvalidVariant as a run's configuration: halt(0x3), OUT, VARIANT and the sink untouched (R84, R98). -/
def State.haltInvalidVariant (s : State) : State :=
  (s.halt .invalidVariant).respond .invalidVariant 0

/-! ### The sink -/

/-- The sink's answer to the next append (R38): what the script says, and after the script a free value (log entry 2). -/
def State.nextAnswer (s : State) : SinkAnswer :=
  match s.sinkScript with
  | a :: _ => a
  | [] => Config.sinkAnswer s.sinkDraws

/-- What an append that the sink accepts does: OUT and the destination gain the bytes; at BEGIN the destination is created or
truncated first (R38, R85). -/
def State.appendOk (creating : Bool) (bytes : List Byte) (s : State) : State :=
  { s with
    out := s.out ++ bytes
    sinkFile := if creating then bytes else s.sinkFile ++ bytes
    sinkScript := s.sinkScript.tail
    sinkDraws := s.sinkDraws + 1 }

/-- What an append that the sink fails after `k` bytes does: OUT gains the first `k` bytes (R34), the destination's bytes are
a free value (log entry 3), and the run halts with SINK_UNAVAILABLE (R97). -/
def State.appendFailed (k : Nat) (bytes : List Byte) (s : State) : State :=
  ({ s with
      out := s.out ++ bytes.take k
      sinkFile := Config.sinkFileAfterFailure s.sinkDraws
      sinkScript := s.sinkScript.tail
      sinkDraws := s.sinkDraws + 1 }.halt .sinkUnavailable).respond .sinkUnavailable 0

/-- BEGIN from IDLE with a valid variant: VARIANT is written, then the magic header is offered to the sink (R84, R85). -/
def State.beginStream (v : Variant) (s : State) : State :=
  match s.nextAnswer with
  | .ok =>
    ({ { s with variant := v }.appendOk true (magic v) with phase := .opened }).respond .ok (magic v).length
  | .fail k => { s with variant := v }.appendFailed k (magic v)

/-- The append of an accepted SUBMIT's frame (R86, R87). -/
def State.appendFrame (f : List Byte) (s : State) : State :=
  match s.nextAnswer with
  | .ok => (s.appendOk false f).respond .ok f.length
  | .fail k => s.appendFailed k f

/-! ### Payload commands -/

/-- The payload of a SUBMIT or TRANSCODE enters the datapath, with the variant in use (R24, R28;
log entry 24). -/
def State.loadPayload (c : Client) (v : Variant) (p : List Byte) (s : State) : State :=
  { s with datapath := some { client := c, variant := v, payload := p } }

/-- The end of a payload command with the transcoder's result: the datapath is emptied (R24); SKIPPED and FAILED append
nothing (R88); an accepted frame goes to the sink for SUBMIT (R87) and to the response stream for TRANSCODE (R60, R82). -/
def State.finish (c : Client) (r : TranscodeResult) (s : State) : State :=
  match r with
  | .skipped => { s with datapath := none }.respond .skipped 0
  | .failed => { s with datapath := none }.respond .failed 0
  | .accepted f =>
    match c with
    | .submit => { s with datapath := none }.appendFrame f
    | .transcode => ({ s with datapath := none }.respond .ok f.length).sendBytes f

/-- Runs the frame transcoder on the payload in the datapath and ends its command (R79, R82, R86). -/
def State.runDatapath (s : State) : State :=
  match s.datapath with
  | some d => s.finish d.client (transcode d.variant d.payload)
  | none => s

/-- The meaning shared by the frame-type rows: the row's variant and frame type applied to the payload in the datapath, with
the quality bit of the decoded header word (R73, R79; log entry 22). With no payload in the datapath it is a fault (log entry
9). -/
def runFrameType (v : Variant) (ft : BitVec 4) (h : FrameHeader) (s : State) : Host.Outcome State Fault Refusal :=
  match s.datapath with
  | some d => .next (s.finish d.client (frameTypeResult v ft h.q d.payload))
  | none => .fault .frameTypeOutsideCommand

/-! ### The command stream and reset -/

/-- The command stream after the bytes of the command in hand (R52, R56). -/
def State.advance (rest : List Byte) (s : State) : State :=
  { s with input := rest }

/-- Reset (R113, R114): every field of the block at its reset value, the unread bytes of a cut command discarded; the sink
and the responses already sent are untouched, and the host goes on with the next run's bytes (log entries 4 and 15). -/
def State.hardReset (run : List Byte) (later : List (List Byte)) (s : State) : State :=
  { State.reset with
    input := run
    laterRuns := later
    responses := s.responses
    sinkFile := s.sinkFile
    sinkScript := s.sinkScript
    sinkDraws := s.sinkDraws }

/-- What the block does when the command stream holds no whole command: it waits, keeping all state (R111, R113), unless a
reset comes, which cuts the incomplete command (R113). -/
def State.waitOrReset (s : State) : State :=
  match s.laterRuns with
  | run :: later => s.hardReset run later
  | [] => s

/-- The state with the opcode table's instruction placed where the next step takes its instruction: a command at the front of
the command stream; a header word as the payload of a TRANSCODE in progress under NarrowBand (log entries 7 and 8). -/
def State.placeTableWord (nbits w : Nat) (s : State) : State :=
  match decode (tableCommand nbits w) with
  | .command _ _ => { s with datapath := none, input := tableCommand nbits w ++ s.input }
  | .illegal _ _ => s.loadPayload .transcode .nb (tablePayload nbits w)
  | .incomplete => s.loadPayload .transcode .nb (tablePayload nbits w)

end Sys2Proof.Machine
end

