-- ==== Sys2Proof/Machine/CodecTable.lean ====
section
/-! DEFINITION. The codec table's command: LOOKUP (R68). -/

namespace Sys2Proof.Machine

/-- LOOKUP: one codec ROM entry, in every phase; an invalid variant is reported without halting (R68). -/
def execLookup (v : BitVec 2) (ft : BitVec 4) (s : State) : Host.Outcome State Fault Refusal :=
  match variantOf v with
  | none => .next (s.respond .invalidVariant 0)
  | some x =>
    match rom x ft with
    | some n => .next (s.respond .ok n)
    | none => .next (s.respond .skipped 0)

end Sys2Proof.Machine
end

