-- ==== Sys2Proof/Machine/FrameTypes.lean ====
section
/-! DEFINITION. The frame-type rows: what the frame transcoder does with the payload in the datapath once its header word is
decoded under the run's variant (R45, R73, R79). Each is one line over `runFrameType`; the bit length comes from the ROM. -/

namespace Sys2Proof.Machine

/-- FT0_NB: 95 speech bits (R79). -/
def execFt0Nb (h : FrameHeader) (s : State) : Host.Outcome State Fault Refusal :=
  runFrameType .nb 0#4 h s

/-- FT1_NB: 103 speech bits (R79). -/
def execFt1Nb (h : FrameHeader) (s : State) : Host.Outcome State Fault Refusal :=
  runFrameType .nb 1#4 h s

/-- FT2_NB: 118 speech bits (R79). -/
def execFt2Nb (h : FrameHeader) (s : State) : Host.Outcome State Fault Refusal :=
  runFrameType .nb 2#4 h s

/-- FT3_NB: 134 speech bits (R79). -/
def execFt3Nb (h : FrameHeader) (s : State) : Host.Outcome State Fault Refusal :=
  runFrameType .nb 3#4 h s

/-- FT4_NB: 148 speech bits (R79). -/
def execFt4Nb (h : FrameHeader) (s : State) : Host.Outcome State Fault Refusal :=
  runFrameType .nb 4#4 h s

/-- FT5_NB: 159 speech bits (R79). -/
def execFt5Nb (h : FrameHeader) (s : State) : Host.Outcome State Fault Refusal :=
  runFrameType .nb 5#4 h s

/-- FT6_NB: 204 speech bits (R79). -/
def execFt6Nb (h : FrameHeader) (s : State) : Host.Outcome State Fault Refusal :=
  runFrameType .nb 6#4 h s

/-- FT7_NB: 244 speech bits (R79). -/
def execFt7Nb (h : FrameHeader) (s : State) : Host.Outcome State Fault Refusal :=
  runFrameType .nb 7#4 h s

/-- FT8_NB: 39 speech bits (R79). -/
def execFt8Nb (h : FrameHeader) (s : State) : Host.Outcome State Fault Refusal :=
  runFrameType .nb 8#4 h s

/-- FT9_NB: no table entry: the payload is skipped (R73). -/
def execFt9Nb (h : FrameHeader) (s : State) : Host.Outcome State Fault Refusal :=
  runFrameType .nb 9#4 h s

/-- FT10_NB: no table entry: the payload is skipped (R73). -/
def execFt10Nb (h : FrameHeader) (s : State) : Host.Outcome State Fault Refusal :=
  runFrameType .nb 10#4 h s

/-- FT11_NB: no table entry: the payload is skipped (R73). -/
def execFt11Nb (h : FrameHeader) (s : State) : Host.Outcome State Fault Refusal :=
  runFrameType .nb 11#4 h s

/-- FT12_NB: no table entry: the payload is skipped (R73). -/
def execFt12Nb (h : FrameHeader) (s : State) : Host.Outcome State Fault Refusal :=
  runFrameType .nb 12#4 h s

/-- FT13_NB: no table entry: the payload is skipped (R73). -/
def execFt13Nb (h : FrameHeader) (s : State) : Host.Outcome State Fault Refusal :=
  runFrameType .nb 13#4 h s

/-- FT14_NB: no table entry: the payload is skipped (R73). -/
def execFt14Nb (h : FrameHeader) (s : State) : Host.Outcome State Fault Refusal :=
  runFrameType .nb 14#4 h s

/-- FT15_NB: no table entry: the payload is skipped (R73). -/
def execFt15Nb (h : FrameHeader) (s : State) : Host.Outcome State Fault Refusal :=
  runFrameType .nb 15#4 h s

/-- FT0_WB: 132 speech bits (R79). -/
def execFt0Wb (h : FrameHeader) (s : State) : Host.Outcome State Fault Refusal :=
  runFrameType .wb 0#4 h s

/-- FT1_WB: 177 speech bits (R79). -/
def execFt1Wb (h : FrameHeader) (s : State) : Host.Outcome State Fault Refusal :=
  runFrameType .wb 1#4 h s

/-- FT2_WB: 253 speech bits (R79). -/
def execFt2Wb (h : FrameHeader) (s : State) : Host.Outcome State Fault Refusal :=
  runFrameType .wb 2#4 h s

/-- FT3_WB: 285 speech bits (R79). -/
def execFt3Wb (h : FrameHeader) (s : State) : Host.Outcome State Fault Refusal :=
  runFrameType .wb 3#4 h s

/-- FT4_WB: 317 speech bits (R79). -/
def execFt4Wb (h : FrameHeader) (s : State) : Host.Outcome State Fault Refusal :=
  runFrameType .wb 4#4 h s

/-- FT5_WB: 365 speech bits (R79). -/
def execFt5Wb (h : FrameHeader) (s : State) : Host.Outcome State Fault Refusal :=
  runFrameType .wb 5#4 h s

/-- FT6_WB: 397 speech bits (R79). -/
def execFt6Wb (h : FrameHeader) (s : State) : Host.Outcome State Fault Refusal :=
  runFrameType .wb 6#4 h s

/-- FT7_WB: 461 speech bits (R79). -/
def execFt7Wb (h : FrameHeader) (s : State) : Host.Outcome State Fault Refusal :=
  runFrameType .wb 7#4 h s

/-- FT8_WB: 477 speech bits (R79). -/
def execFt8Wb (h : FrameHeader) (s : State) : Host.Outcome State Fault Refusal :=
  runFrameType .wb 8#4 h s

/-- FT9_WB: 40 speech bits (R79). -/
def execFt9Wb (h : FrameHeader) (s : State) : Host.Outcome State Fault Refusal :=
  runFrameType .wb 9#4 h s

/-- FT10_WB: no table entry: the payload is skipped (R73). -/
def execFt10Wb (h : FrameHeader) (s : State) : Host.Outcome State Fault Refusal :=
  runFrameType .wb 10#4 h s

/-- FT11_WB: no table entry: the payload is skipped (R73). -/
def execFt11Wb (h : FrameHeader) (s : State) : Host.Outcome State Fault Refusal :=
  runFrameType .wb 11#4 h s

/-- FT12_WB: no table entry: the payload is skipped (R73). -/
def execFt12Wb (h : FrameHeader) (s : State) : Host.Outcome State Fault Refusal :=
  runFrameType .wb 12#4 h s

/-- FT13_WB: no table entry: the payload is skipped (R73). -/
def execFt13Wb (h : FrameHeader) (s : State) : Host.Outcome State Fault Refusal :=
  runFrameType .wb 13#4 h s

/-- FT14_WB: no table entry: the payload is skipped (R73). -/
def execFt14Wb (h : FrameHeader) (s : State) : Host.Outcome State Fault Refusal :=
  runFrameType .wb 14#4 h s

/-- FT15_WB: no table entry: the payload is skipped (R73). -/
def execFt15Wb (h : FrameHeader) (s : State) : Host.Outcome State Fault Refusal :=
  runFrameType .wb 15#4 h s

end Sys2Proof.Machine
end

