-- ==== Sys2Proof/Machine/StreamAssembler.lean ====
section
/-! DEFINITION. The stream assembler's commands: BEGIN (R84), SUBMIT (R86) and STATUS (R90). The order of the checks is R102's;
the legality of the command word has been checked by the decoder (R55). -/

namespace Sys2Proof.Machine

/-- BEGIN: open the run's stream for a variant and write its magic header (R84). -/
def execBegin (v : BitVec 2) (s : State) : Host.Outcome State Fault Refusal :=
  match s.phase with
  | .halted => .next (s.respond .halted 0)
  | .opened => .next (s.respond .sequence 0)
  | .idle =>
    match variantOf v with
    | none => .next s.haltInvalidVariant
    | some x => .next (s.beginStream x)

/-- SUBMIT: transcode one payload with the run's variant and append its frame, or drop it (R86). -/
def execSubmit (p : List Byte) (s : State) : Host.Outcome State Fault Refusal :=
  match s.phase with
  | .halted => .next (s.respond .halted 0)
  | .idle => .next (s.respond .sequence 0)
  | .opened => .next (s.loadPayload .submit s.variant p).runDatapath

/-- STATUS: the STAT word, with no state written (R90). -/
def execStatus (s : State) : Host.Outcome State Fault Refusal :=
  .next s.respondStat

end Sys2Proof.Machine
end

