-- ==== Sys2Proof/Machine/Transcoder.lean ====
section
/-! DEFINITION. The frame transcoder's command: TRANSCODE (R82). -/

namespace Sys2Proof.Machine

/-- TRANSCODE: the frame transcoder with the command's own variant, its frame sent to the host; in every phase; an invalid
variant is reported without halting (R82). -/
def execTranscode (v : BitVec 2) (p : List Byte) (s : State) : Host.Outcome State Fault Refusal :=
  match variantOf v with
  | none => .next (s.respond .invalidVariant 0)
  | some x => .next (s.loadPayload .transcode x p).runDatapath

end Sys2Proof.Machine
end

