-- ==== Sys2Proof/Machine/Dispatch.lean ====
section
/-! DEFINITION. The dispatch: one arm per row of the opcode table. -/

namespace Sys2Proof.Machine

def exec (i : Instr) (s : State) : Host.Outcome State Fault Refusal :=
  match i with
  -- the commands of the command stream (R54)
  | .beginRun v => Sys2Proof.Machine.execBegin v s
  | .submit p => Sys2Proof.Machine.execSubmit p s
  | .lookup v ft => Sys2Proof.Machine.execLookup v ft s
  | .transcode v p => Sys2Proof.Machine.execTranscode v p s
  | .status => Sys2Proof.Machine.execStatus s
  -- the frame-type decodes of the payload header word (R45)
  | .ft0Nb h => Sys2Proof.Machine.execFt0Nb h s
  | .ft1Nb h => Sys2Proof.Machine.execFt1Nb h s
  | .ft2Nb h => Sys2Proof.Machine.execFt2Nb h s
  | .ft3Nb h => Sys2Proof.Machine.execFt3Nb h s
  | .ft4Nb h => Sys2Proof.Machine.execFt4Nb h s
  | .ft5Nb h => Sys2Proof.Machine.execFt5Nb h s
  | .ft6Nb h => Sys2Proof.Machine.execFt6Nb h s
  | .ft7Nb h => Sys2Proof.Machine.execFt7Nb h s
  | .ft8Nb h => Sys2Proof.Machine.execFt8Nb h s
  | .ft9Nb h => Sys2Proof.Machine.execFt9Nb h s
  | .ft10Nb h => Sys2Proof.Machine.execFt10Nb h s
  | .ft11Nb h => Sys2Proof.Machine.execFt11Nb h s
  | .ft12Nb h => Sys2Proof.Machine.execFt12Nb h s
  | .ft13Nb h => Sys2Proof.Machine.execFt13Nb h s
  | .ft14Nb h => Sys2Proof.Machine.execFt14Nb h s
  | .ft15Nb h => Sys2Proof.Machine.execFt15Nb h s
  | .ft0Wb h => Sys2Proof.Machine.execFt0Wb h s
  | .ft1Wb h => Sys2Proof.Machine.execFt1Wb h s
  | .ft2Wb h => Sys2Proof.Machine.execFt2Wb h s
  | .ft3Wb h => Sys2Proof.Machine.execFt3Wb h s
  | .ft4Wb h => Sys2Proof.Machine.execFt4Wb h s
  | .ft5Wb h => Sys2Proof.Machine.execFt5Wb h s
  | .ft6Wb h => Sys2Proof.Machine.execFt6Wb h s
  | .ft7Wb h => Sys2Proof.Machine.execFt7Wb h s
  | .ft8Wb h => Sys2Proof.Machine.execFt8Wb h s
  | .ft9Wb h => Sys2Proof.Machine.execFt9Wb h s
  | .ft10Wb h => Sys2Proof.Machine.execFt10Wb h s
  | .ft11Wb h => Sys2Proof.Machine.execFt11Wb h s
  | .ft12Wb h => Sys2Proof.Machine.execFt12Wb h s
  | .ft13Wb h => Sys2Proof.Machine.execFt13Wb h s
  | .ft14Wb h => Sys2Proof.Machine.execFt14Wb h s
  | .ft15Wb h => Sys2Proof.Machine.execFt15Wb h s

end Sys2Proof.Machine
end

