-- ==== Sys2Proof/Machine/Step.lean ====
section
/-! DEFINITION. One step: one whole command of the command stream (R15, R37), or, in a state that holds a payload in the
datapath, the frame-type decode of that payload. -/

namespace Sys2Proof.Machine

/-- One step. With a payload in the datapath, its header word is decoded under the variant in use and that row is run; a
payload with no whole header word fails (R71). Otherwise the next command of the stream is decoded and run; an illegal
command word has the effect of R55; with no whole command in the stream the block waits, or is reset (R111, R113). -/
def step (s : State) : Host.Outcome State Fault Refusal :=
  match s.datapath with
  | some d =>
    match decodeHeader d.variant d.payload with
    | some i => exec i s
    | none => .next s.runDatapath
  | none =>
    match decode s.input with
    | .command i rest => exec i (s.advance rest)
    | .illegal _ rest => .next (s.advance rest).illegalCommand
    | .incomplete => .next s.waitOrReset

/-- The state with the opcode table's instruction `w` where the next step takes its instruction (log entry 8). -/
def State.withFetchWord (s : State) (nbits w : Nat) : State :=
  s.placeTableWord nbits w

end Sys2Proof.Machine
end

