-- ==== Sys2Proof/Machine/AsmText.lean ====
section
/-! DEFINITION. The textual syntax of commands (R63): a function from one line of text to the command bytes it spells. No step
reads it; it lets the spec's programs be written as the spec writes them. Spacing, the case of operands, and `v=` in LOOKUP and
TRANSCODE, are the model's choice (log entry 18). -/

namespace Sys2Proof.Machine

/-- Mnemonics are case-insensitive (R63): A to Z as a to z. That it is used on operands too is the model's choice (log entry
18). -/
def asmLower (c : Char) : Char :=
  if 65 ≤ c.toNat ∧ c.toNat ≤ 90 then Char.ofNat (c.toNat + 32) else c

/-- A finished token in front of the later ones, unless it is empty. -/
def asmFlush (cur : List Char) (rest : List (List Char)) : List (List Char) :=
  if cur.isEmpty then rest else cur :: rest

/-- The tokens of a line: words separated by blanks, a comma a token of its own, `#` and what follows dropped (R63). The
whole line is read in lower case, operands too (`NB`, `V=2`, `0X2400`): R63 makes only mnemonics case-insensitive, so the case
of operands and the separation by blanks are the model's choice (PRESUMED, log entry 18). -/
def asmTokens (cur : List Char) : List Char → List (List Char)
  | [] => asmFlush cur []
  | c :: cs =>
    if c.toNat = 35 then asmFlush cur []
    else if c.toNat = 44 then asmFlush cur ([c] :: asmTokens [] cs)
    else if c.toNat ≤ 32 then asmFlush cur (asmTokens [] cs)
    else asmTokens (cur ++ [asmLower c]) cs

/-- A hexadecimal digit, already in lower case. -/
def asmHexDigit (c : Char) : Option Nat :=
  if 48 ≤ c.toNat ∧ c.toNat ≤ 57 then some (c.toNat - 48)
  else if 97 ≤ c.toNat ∧ c.toNat ≤ 102 then some (c.toNat - 87)
  else none

/-- Colon-separated bytes of two hexadecimal digits each (R63). -/
def asmHexBytes : List Char → Option (List Byte)
  | [a, b] =>
    match asmHexDigit a, asmHexDigit b with
    | some x, some y => some [BitVec.ofNat 8 (16 * x + y)]
    | _, _ => none
  | a :: b :: colon :: rest =>
    match asmHexDigit a, asmHexDigit b, asmHexBytes rest with
    | some x, some y, some more =>
      if colon.toNat = 58 then some (BitVec.ofNat 8 (16 * x + y) :: more) else none
    | _, _, _ => none
  | _ => none

/-- A payload operand: `-` is the empty payload (R63); the length must fit LEN (R56). -/
def asmPayload (t : List Char) : Option (List Byte) :=
  if t = "-".toList then some []
  else
    match asmHexBytes t with
    | some p => if payloadFits p then some p else none
    | none => none

/-- A variant operand: nb, wb, or v=0 to v=3 for any code (R63). -/
def asmVariant (t : List Char) : Option (BitVec 2) :=
  if t = "nb".toList ∨ t = "v=0".toList then some 0#2
  else if t = "wb".toList ∨ t = "v=1".toList then some 1#2
  else if t = "v=2".toList then some 2#2
  else if t = "v=3".toList then some 3#2
  else none

/-- A frame type operand: 0 to 15 in decimal (R63). -/
def asmFrameType : List Char → Option (BitVec 4)
  | [a] => if 48 ≤ a.toNat ∧ a.toNat ≤ 57 then some (BitVec.ofNat 4 (a.toNat - 48)) else none
  | [a, b] => if a.toNat = 49 ∧ 48 ≤ b.toNat ∧ b.toNat ≤ 53 then some (BitVec.ofNat 4 (b.toNat - 38)) else none
  | _ => none

/-- The operand of `.word`: 0x and four hexadecimal digits (R63). -/
def asmWord : List Char → Option (List Byte)
  | [z, x, a, b, c, d] =>
    if [z, x] = "0x".toList then
      match asmHexBytes [a, b], asmHexBytes [c, d] with
      | some hi, some lo => some (hi ++ lo)
      | _, _ => none
    else none
  | _ => none

/-- A command with its payload operand, encoded when the operand reads. -/
def asmWithPayload (make : List Byte → Instr) (t : List Char) : Option (List Byte) :=
  (asmPayload t).map fun p => encode (make p)

/-- The bytes that the tokens of a line spell, row by row of R63; none where the text is no command. -/
def asmCommand : List (List Char) → Option (List Byte)
  | [] => some []
  | [m] => if m = "status".toList then some (encode .status) else none
  | [m, a] =>
    if m = "begin".toList then (asmVariant a).map fun v => encode (.beginRun v)
    else if m = "submit".toList then asmWithPayload .submit a
    else if m = ".word".toList then asmWord a
    else none
  | [m, a, comma, b] =>
    if comma ≠ ",".toList then none
    else
      match asmVariant a with
      | none => none
      | some v =>
        if m = "lookup".toList then (asmFrameType b).map fun ft => encode (.lookup v ft)
        else if m = "transcode".toList then asmWithPayload (.transcode v) b
        else none
  | _ => none

/-- One line of the textual syntax as command bytes (R63). -/
def assembleLine (text : List Char) : Option (List Byte) :=
  asmCommand (asmTokens [] text)

end Sys2Proof.Machine
end

