-- ==== Sys2Proof/Safety.lean ====
section
/-! DEFINITION. The terms claims about the machine are stated in: the tables of R49 and R59 as the spec lists them, the legal
command words of the opcode table, storage frames and storage files (R49, R51), a reader of such files (R62), the stream
invariant (R92), and runs of several instructions. -/

namespace Sys2Proof.Safety

open Sys2Proof Sys2Proof.Machine

/-- The command words that some command row of the opcode table matches, by the rows' masks and match values. -/
def TableLegal (cw : Word) : Prop :=
  cw &&& 0xF3FF#16 = 0x1000#16 ∨ cw = 0x2000#16 ∨ cw &&& 0xF3F0#16 = 0x3000#16 ∨ cw &&& 0xF3FF#16 = 0x4000#16 ∨
    cw = 0x5000#16

/-- Whether OP is 0x2 or 0x4 (R56), by masks. -/
def HasPayload (cw : Word) : Prop :=
  cw &&& 0xF000#16 = 0x2000#16 ∨ cw &&& 0xF000#16 = 0x4000#16

/-- One row of the frame table of R49. -/
structure FrameRow where
  row        : FrameHeader → Instr
  header     : Byte
  bits       : Nat
  pad        : Nat
  frameBytes : Nat
  minPayload : Nat

/-- The accepted frame types of NarrowBand, as R49 lists them. -/
def nbFrameRows : List FrameRow :=
  [⟨.ft0Nb, 0x00, 95, 1, 13, 14⟩, ⟨.ft1Nb, 0x08, 103, 1, 14, 15⟩, ⟨.ft2Nb, 0x10, 118, 2, 16, 16⟩,
   ⟨.ft3Nb, 0x18, 134, 2, 18, 18⟩, ⟨.ft4Nb, 0x20, 148, 4, 20, 20⟩, ⟨.ft5Nb, 0x28, 159, 1, 21, 22⟩,
   ⟨.ft6Nb, 0x30, 204, 4, 27, 27⟩, ⟨.ft7Nb, 0x38, 244, 4, 32, 32⟩, ⟨.ft8Nb, 0x40, 39, 1, 6, 7⟩]

/-- The accepted frame types of WideBand, as R49 lists them. -/
def wbFrameRows : List FrameRow :=
  [⟨.ft0Wb, 0x00, 132, 4, 18, 18⟩, ⟨.ft1Wb, 0x08, 177, 7, 24, 24⟩, ⟨.ft2Wb, 0x10, 253, 3, 33, 33⟩,
   ⟨.ft3Wb, 0x18, 285, 3, 37, 37⟩, ⟨.ft4Wb, 0x20, 317, 3, 41, 41⟩, ⟨.ft5Wb, 0x28, 365, 3, 47, 47⟩,
   ⟨.ft6Wb, 0x30, 397, 3, 51, 51⟩, ⟨.ft7Wb, 0x38, 461, 3, 59, 59⟩, ⟨.ft8Wb, 0x40, 477, 3, 61, 61⟩,
   ⟨.ft9Wb, 0x48, 40, 0, 6, 7⟩]

/-- The row of R49 for a variant and a frame type, none for the codes R49 does not list. -/
def frameRow (v : Variant) (ft : BitVec 4) : Option FrameRow :=
  match v with
  | .nb => nbFrameRows[ft.toNat]?
  | .wb => wbFrameRows[ft.toNat]?

/-- The frame types without a table entry: NB 9 to 15 and WB 10 to 15 (R46, R73). -/
def skippedRows : List (FrameHeader → Instr) :=
  [.ft9Nb, .ft10Nb, .ft11Nb, .ft12Nb, .ft13Nb, .ft14Nb, .ft15Nb,
   .ft10Wb, .ft11Wb, .ft12Wb, .ft13Wb, .ft14Wb, .ft15Wb]

/-- The status codes, as R59 lists them. -/
def statusCodes : List (Status × BitVec 4) :=
  [(.ok, 0x0#4), (.skipped, 0x1#4), (.failed, 0x2#4), (.invalidVariant, 0x3#4), (.sinkUnavailable, 0x4#4),
   (.sequence, 0x5#4), (.halted, 0x6#4), (.illegalCmd, 0x7#4), (.noCommand, 0xF#4)]

/-- The frame type a storage header byte names: h[6:3] (R48). -/
def headerFrameType (h : Byte) : BitVec 4 :=
  h.extractLsb' 3 4

/-- Whether the bytes are one storage frame of the variant, by the table of R49 and not by the codec ROM: a header byte h that,
but for Q in h[2], is the header of a row, the row's number of bytes, and a last byte whose pad bits are zero (R48, R49). -/
def isStorageFrame (v : Variant) : List Byte → Bool
  | [] => false
  | h :: body =>
    match frameRow v (headerFrameType h) with
    | none => false
    | some r =>
      h &&& 0xFB#8 == r.header && body.length + 1 == r.frameBytes &&
        body.getLastD 0 &&& BitVec.ofNat 8 (2 ^ r.pad - 1) == 0

/-- An AMR storage file of the variant: the magic header and a concatenation of storage frames (R31, R51). -/
def StorageFile (v : Variant) (file : List Byte) : Prop :=
  ∃ frames : List (List Byte), (∀ f ∈ frames, isStorageFrame v f = true) ∧ file = magic v ++ frames.flatten

/-- What OUT holds after an append failed: a prefix of the magic header, or a storage file followed by a prefix of one more
frame (R34, R92). -/
def CutFile (v : Variant) (file : List Byte) : Prop :=
  (∃ k, file = (magic v).take k) ∨
    ∃ whole f k, StorageFile v whole ∧ isStorageFrame v f = true ∧ file = whole ++ f.take k

/-- The stream invariant by phase (R16, R17, R19, R22, R92). -/
def StreamInv (s : State) : Prop :=
  match s.phase with
  | .idle => s.out = [] ∧ s.haltCause = .notHalted ∧ s.variant = .nb
  | .opened => s.haltCause = .notHalted ∧ StorageFile s.variant s.out ∧ s.sinkFile = s.out
  | .halted =>
    (s.haltCause = .invalidVariant ∧ s.out = []) ∨ (s.haltCause = .sinkUnavailable ∧ CutFile s.variant s.out)

/-- The invariant of the machine between commands: no payload in the datapath (R24), LAST_STATUS is NONE only before the first
command of a run (R18), and the stream invariant. -/
def Inv (s : State) : Prop :=
  s.datapath = none ∧ (s.lastStatus = .noCommand → s.phase = .idle) ∧ StreamInv s

/-- The frames of a storage file's bytes after its magic header, each frame's length looked up in the table of R49 by its
header byte (R31, R62); every frame takes a byte, so as much fuel as there are bytes is enough. -/
def readFrames (v : Variant) : Nat → List Byte → Option (List (List Byte))
  | _, [] => some []
  | 0, _ :: _ => none
  | fuel + 1, h :: t =>
    match frameRow v (headerFrameType h) with
    | none => none
    | some r =>
      if t.length + 1 < r.frameBytes then none
      else (readFrames v fuel ((h :: t).drop r.frameBytes)).map fun fs => (h :: t).take r.frameBytes :: fs

/-- A reader of storage files: the magic header's bytes tell the variant, and the frames follow (R31, R50, R51, R62). -/
def readStorageFile (file : List Byte) : Option (Variant × List (List Byte)) :=
  if file.take 6 = [0x23, 0x21, 0x41, 0x4D, 0x52, 0x0A] then
    (readFrames .nb file.length (file.drop 6)).map fun fs => (.nb, fs)
  else if file.take 9 = [0x23, 0x21, 0x41, 0x4D, 0x52, 0x2D, 0x57, 0x42, 0x0A] then
    (readFrames .wb file.length (file.drop 9)).map fun fs => (.wb, fs)
  else none

/-- Instructions run one after the other, stopping at the first that does not answer a next state (R37). -/
def runAll : List Instr → State → Host.Outcome State Fault Refusal
  | [], s => .next s
  | i :: is, s =>
    match exec i s with
    | .next t => runAll is t
    | .fault r => .fault r
    | .refused r => .refused r

/-- The frame that a SUBMIT of the payload appends in a run of the variant, if any (R86). -/
def acceptedFrame (v : Variant) (p : List Byte) : Option (List Byte) :=
  match transcode v p with
  | .accepted f => some f
  | .skipped => none
  | .failed => none

/-- A reset is what the step does: the command stream holds no whole command and a later run is waiting (R113). -/
def ResetComes (s : State) : Prop :=
  s.datapath = none ∧ decode s.input = .incomplete ∧ s.laterRuns ≠ []

end Sys2Proof.Safety
end

