-- ==== Sys2Proof/Certificates/Slice0/Obligations.lean ====
section
/-! DEFINITION. The statements about the model, each one taken from the numbered rules of spec/. In every statement a next state
is written as the state before with the fields the rule writes replaced, so that the equation is the frame as well: every field
not named is unchanged. The block has no addressed memory (R27, R36); OUT and the sink's bytes stand in its place. The fields
`sinkScript` and `sinkDraws` are the model's own account of the sink's answers (log entry 2), and where a destination's bytes
are said only to be some `file` they are a free value (log entry 3). A payload in `datapath` is the middle of a SUBMIT or
TRANSCODE (log entry 6). -/

open Sys2Proof Sys2Proof.Machine Sys2Proof.Safety

/-! ### Reset, waiting and the step -/

/-- R26: State.reset has the listed values, and a reset during a run gives the same values to every field of the block; the
codec ROM has the contents of R66, before and after. What a reset leaves of the environment's fields is log entries 4, 10 and
15 and is not stated here. -/
def Obligations.ResetGivesTheResetValues : Prop :=
  (State.reset.phase = .idle ∧ State.reset.variant = .nb ∧ State.reset.lastStatus = .noCommand ∧
    State.reset.haltCause = .notHalted ∧ State.reset.out = [] ∧ State.reset.datapath = none ∧
    statWord State.reset = 0x000F#16) ∧
  (nbTable = [95, 103, 118, 134, 148, 159, 204, 244, 39] ∧
    wbTable = [132, 177, 253, 285, 317, 365, 397, 461, 477, 40]) ∧
  ∀ (s : State), ResetComes s → ∃ t, step s = .next t ∧
    t.phase = .idle ∧ t.variant = .nb ∧ t.lastStatus = .noCommand ∧ t.haltCause = .notHalted ∧ t.out = [] ∧
    t.datapath = none ∧ statWord t = 0x000F#16

/-- R114: a reset leaves the sink's bytes as they are. The unread bytes of the cut command are gone and the host goes on with
the next run's bytes (R113, log entry 4). -/
def Obligations.ResetKeepsTheSink : Prop :=
  ∀ (s : State) (run : List Byte) (later : List (List Byte)), s.datapath = none → decode s.input = .incomplete →
    s.laterRuns = run :: later →
    ∃ t, step s = .next t ∧ t.sinkFile = s.sinkFile ∧ t.sinkScript = s.sinkScript ∧ t.sinkDraws = s.sinkDraws ∧
      t.responses = s.responses ∧ t.input = run ∧ t.laterRuns = later

/-- R111: with no whole command in the stream and no reset to come, the block keeps all state. That an incomplete command
waits too is log entry 5. -/
def Obligations.WaitingKeepsAllState : Prop :=
  ∀ (s : State), s.datapath = none → decode s.input = .incomplete → s.laterRuns = [] → step s = .next s

/-- R15: a step at a state whose command stream decodes to a command runs that command, after moving past its bytes. -/
def Obligations.StepRunsTheDecodedCommand : Prop :=
  ∀ (s : State) (i : Instr) (rest : List Byte), s.datapath = none → decode s.input = .command i rest →
    step s = exec i { s with input := rest }

/-- R72, log entry 6: a step at a state with a payload in the datapath runs the frame-type row of its header word. -/
def Obligations.StepRunsTheDecodedFrameType : Prop :=
  ∀ (s : State) (d : Datapath) (i : Instr), s.datapath = some d → decodeHeader d.variant d.payload = some i →
    step s = exec i s

/-- Every step answers a next state: the block never stops (R101, R111). It covers states no run reaches. -/
def Obligations.EveryStepAnswersANextState : Prop :=
  ∀ (s : State), ∃ t, step s = .next t

/-- R55: a legal command word decodes to a command; an illegal one changes LAST_STATUS only, answers 0x7000, and consumes its
own bytes, with OP 0x2 or 0x4 its length word and payload as well. -/
def Obligations.IllegalWordsAreRejectedWithoutEffect : Prop :=
  (∀ (cw len : Word) (p rest : List Byte), TableLegal cw → p.length = len.toNat →
    (¬ HasPayload cw → ∃ i, decode (wordBytes cw ++ rest) = .command i rest) ∧
    (HasPayload cw → ∃ i, decode (wordBytes cw ++ wordBytes len ++ p ++ rest) = .command i rest)) ∧
  ∀ (s : State) (cw : Word) (rest : List Byte), s.datapath = none → ¬ TableLegal cw →
    (¬ HasPayload cw → s.input = wordBytes cw ++ rest →
      step s = .next
        { s with input := rest, lastStatus := .illegalCmd, responses := s.responses ++ [0x70, 0x00] }) ∧
    (∀ (len : Word) (p : List Byte), HasPayload cw → p.length = len.toNat →
      s.input = wordBytes cw ++ wordBytes len ++ p ++ rest →
      step s = .next
        { s with input := rest, lastStatus := .illegalCmd, responses := s.responses ++ [0x70, 0x00] })

/-- R56: the length word and exactly LEN payload bytes of an OP 0x2 or 0x4 command are consumed whatever its other bits, its
payload and its status, so the next command word is found after the payload; any other command is one word. -/
def Obligations.PayloadIsAlwaysConsumed : Prop :=
  ∀ (s : State) (cw : Word) (rest : List Byte), s.datapath = none →
    (∀ (len : Word) (p : List Byte), HasPayload cw → p.length = len.toNat →
      s.input = wordBytes cw ++ wordBytes len ++ p ++ rest → ∃ t, step s = .next t ∧ t.input = rest) ∧
    (¬ HasPayload cw → s.input = wordBytes cw ++ rest → ∃ t, step s = .next t ∧ t.input = rest)

/-! ### Encodings -/

/-- Command words and header words written out from R53 to R57, R45 and 95_test_vectors.md decode to what they stand for. -/
def Obligations.WrittenOutWordsDecode : Prop :=
  decode [0x14, 0x00, 0x50] = .command (.beginRun 0b01#2) [0x50] ∧
  decode [0x20, 0x00, 0x00, 0x02, 0x04, 0x80] = .command (.submit [0x04, 0x80]) [] ∧
  decode [0x34, 0x08] = .command (.lookup 0b01#2 8#4) [] ∧
  decode [0x48, 0x00, 0x00, 0x01, 0x07] = .command (.transcode 0b10#2 [0x07]) [] ∧
  decode [0x50, 0x00] = .command .status [] ∧
  decode [0x24, 0x00, 0x00, 0x02, 0x04, 0x80, 0x50] = .illegal 0x2400#16 [0x50] ∧
  decodeHeader .nb [0xF2, 0x7F] = some (.ft4Nb ⟨0xF#4, 0#1, 1#1, 0x3F#6⟩) ∧
  decodeHeader .wb [0x04, 0xEA] = some (.ft9Wb ⟨0x0#4, 0#1, 1#1, 0x2A#6⟩) ∧
  decodeHeader .nb [0xAC, 0x00] = some (.ft8Nb ⟨0xA#4, 1#1, 0#1, 0x00#6⟩)

/-- Decoding the encoding of a well-formed command gives the command back and leaves the rest of the stream (R53 to R57). -/
def Obligations.DecodeOfEncodedCommand : Prop :=
  ∀ (i : Instr) (rest : List Byte), i.isCommand = true → i.wellFormed = true →
    decode (encode i ++ rest) = .command i rest

/-- A decoded command is a well-formed command, and its encoding is the bytes it was read from: each legal word has one
meaning, and the command's length is told by OP and LEN alone (R55, R62). -/
def Obligations.EncodeOfDecodedCommand : Prop :=
  ∀ (bytes : List Byte) (i : Instr) (rest : List Byte), decode bytes = .command i rest →
    i.isCommand = true ∧ i.wellFormed = true ∧ bytes = encode i ++ rest

/-- Every row that is no command is the frame-type row of one variant, and its header word, followed by any bytes, decodes
under that variant to the row with all its fields; a decoded row encodes to the header word it was read from (R45). -/
def Obligations.FrameTypeRowsRoundTrip : Prop :=
  (∀ (i : Instr), i.isCommand = false →
    ∃ v, ∀ rest, decodeHeader v (encode i ++ rest) = some i) ∧
  ∀ (v : Variant) (b0 b1 : Byte) (rest : List Byte) (i : Instr), decodeHeader v (b0 :: b1 :: rest) = some i →
    i.isCommand = false ∧ encode i = [b0, b1]

/-- R45: the fields of the header word HW of a payload's first two bytes are the stream fields of R43, the frame-type match
included. -/
def Obligations.HeaderWordHoldsTheHeaderFields : Prop :=
  ∀ (b0 b1 : Byte) (rest : List Byte),
    payloadCmr (b0 :: b1 :: rest) = (wordOfBytes b0 b1).extractLsb' 12 4 ∧
    payloadReserved (b0 :: b1 :: rest) = (wordOfBytes b0 b1).extractLsb' 11 1 ∧
    payloadFrameType (b0 :: b1 :: rest) = (wordOfBytes b0 b1).extractLsb' 7 4 ∧
    payloadQuality (b0 :: b1 :: rest) = (wordOfBytes b0 b1).extractLsb' 6 1 ∧
    (∀ k, k < 6 → pbit (b0 :: b1 :: rest) (10 + k) = (wordOfBytes b0 b1).getLsbD (5 - k)) ∧
    wordOfBytes b0 b1 &&& 0x0780#16 = (payloadFrameType (b0 :: b1 :: rest)).setWidth 16 <<< 7

/-- R48, R77: h = (FT << 3) | (Q << 2) has h[7] = 0, h[6:3] = FT, h[2] = Q and h[1:0] = 00; for FT 4 and Q 1 it is 0x24. -/
def Obligations.HeaderByteLayout : Prop :=
  headerByte 4#4 1#1 = 0x24#8 ∧
  ∀ (ft : BitVec 4) (q : BitVec 1), headerByte ft q = BitVec.ofNat 8 (ft.toNat <<< 3 ||| q.toNat <<< 2) ∧
    (headerByte ft q).extractLsb' 7 1 = 0#1 ∧ headerFrameType (headerByte ft q) = ft ∧
    (headerByte ft q).extractLsb' 2 1 = q ∧ (headerByte ft q).extractLsb' 0 2 = 0#2

/-- R20: the fields of STAT in every state, with the codes written out: those of R59 in LAST_STATUS, of R16 in PHASE, of R17 and
R57 in VARIANT, of R19 in HALT_CAUSE; the top bits read 0, and STAT is 0x000F after reset. -/
def Obligations.StatWordLayout : Prop :=
  (∀ (s : State),
    ((statWord s).extractLsb' 0 4 = s.lastStatus.code ∧
      ∀ c ∈ statusCodes, s.lastStatus = c.1 → (statWord s).extractLsb' 0 4 = c.2) ∧
    ((statWord s).extractLsb' 4 2 = s.phase.code ∧ (s.phase = .idle → (statWord s).extractLsb' 4 2 = 0b00#2) ∧
      (s.phase = .opened → (statWord s).extractLsb' 4 2 = 0b01#2) ∧
      (s.phase = .halted → (statWord s).extractLsb' 4 2 = 0b10#2)) ∧
    ((statWord s).extractLsb' 6 2 = variantCode s.variant ∧
      (s.variant = .nb → (statWord s).extractLsb' 6 2 = 0b00#2) ∧
      (s.variant = .wb → (statWord s).extractLsb' 6 2 = 0b01#2)) ∧
    ((statWord s).extractLsb' 8 4 = s.haltCause.code ∧
      (s.haltCause = .notHalted → (statWord s).extractLsb' 8 4 = 0x0#4) ∧
      (s.haltCause = .invalidVariant → (statWord s).extractLsb' 8 4 = 0x3#4) ∧
      (s.haltCause = .sinkUnavailable → (statWord s).extractLsb' 8 4 = 0x4#4)) ∧
    (statWord s).extractLsb' 12 4 = 0#4) ∧
  statWord State.reset = 0x000F#16

/-- R58: RW[15:12] is the status code, RW[11:9] is 0 and RW[8:0] is DATA, for every DATA the block returns, with
the codes of R59 written out. That 477 bounds DATA is stated by LastStatusIsTheReturnedStatus (log entry 23). -/
def Obligations.ResponseWordLayout : Prop :=
  ∀ (st : Status) (data : Nat), data ≤ 477 → (responseWord st data).extractLsb' 12 4 = st.code ∧
    (∀ c ∈ statusCodes, st = c.1 → (responseWord st data).extractLsb' 12 4 = c.2) ∧
    (responseWord st data).extractLsb' 9 3 = 0#3 ∧ ((responseWord st data).extractLsb' 0 9).toNat = data

/-! ### Constants -/

/-- R66: the codec ROM. The values are the configuration constants of I2 (log entry 13). -/
def Obligations.CodecRomContents : Prop :=
  ∀ (ft : BitVec 4),
    (rom .nb ft = if ft.toNat ≤ 8 then some ([95, 103, 118, 134, 148, 159, 204, 244, 39].getD ft.toNat 0) else none) ∧
    (rom .wb ft =
      if ft.toNat ≤ 9 then some ([132, 177, 253, 285, 317, 365, 397, 461, 477, 40].getD ft.toNat 0) else none)

/-! ### The frame transcoder -/

/-- R71, R73, R74, R79, in the order that R81 derives from R79: the first check that applies decides the result, with the lengths
in bytes; a 2-byte payload whose frame type has an entry is Failed (R81). -/
def Obligations.TranscoderOrderOfChecks : Prop :=
  ∀ (v : Variant) (p : List Byte),
    (p.length < 2 → transcode v p = .failed) ∧
    (2 ≤ p.length → rom v (payloadFrameType p) = none → transcode v p = .skipped) ∧
    (∀ n, 2 ≤ p.length → rom v (payloadFrameType p) = some n →
      (p.length = 2 → transcode v p = .failed) ∧
      (p.length < (10 + n + 7) / 8 → transcode v p = .failed) ∧
      ((10 + n + 7) / 8 ≤ p.length →
        transcode v p = .accepted (headerByte (payloadFrameType p) (payloadQuality p) ::
          pack (speechBits p n ++ List.replicate ((8 - n % 8) % 8) false))))

/-- R78: an accepted frame is [h] ++ S with 1 + ceil(n/8) bytes, its header byte decodes to the payload's FT and Q, and it is a
storage frame of the variant. What a storage frame is rests on R48 and on R49's table, and the aligned speech bytes on R76 and on
R75's byte form; the spec marks that table and that byte form as derived. -/
def Obligations.AcceptedFrameIsAStorageFrame : Prop :=
  ∀ (v : Variant) (p f : List Byte), transcode v p = .accepted f →
    ∃ n h, rom v (payloadFrameType p) = some n ∧ f = h :: alignedSpeech p n ∧ f.length = 1 + (n + 7) / 8 ∧
      headerFrameType h = payloadFrameType p ∧ h.extractLsb' 2 1 = payloadQuality p ∧ isStorageFrame v f = true

/-- R75: the speech bits of an accepted frame are stream bits [10, 10+n) of the payload, verbatim and in order, and every bit
after them is zero (R76). -/
def Obligations.SpeechBitsAreCopiedVerbatim : Prop :=
  ∀ (v : Variant) (p f : List Byte) (n : Nat), transcode v p = .accepted f → rom v (payloadFrameType p) = some n →
    (∀ k, k < n → pbit f (8 + k) = pbit p (10 + k)) ∧ ∀ i, 8 + n ≤ i → i < bitLength f → pbit f i = false

/-- R76, with the byte form that R75 derives: bit 7 - m of S_raw[j] is speech bit 8j + m, and the byte form of the octet aligner equals the packed and padded
speech bits of R79, for every payload and every number of speech bits. For a payload shorter than 10 + n bits the equality rests
on the model's choice that a bit past the payload is false (log entry 11); no rule reads one there (R28). -/
def Obligations.ByteShifterEqualsBitPacking : Prop :=
  ∀ (p : List Byte) (n : Nat),
    (∀ j m, m < 8 → 8 * j + m < n → (shiftedByte p j).getLsbD (7 - m) = pbit p (10 + (8 * j + m))) ∧
    padBits n ≤ 7 ∧
    alignedSpeech p n = pack (speechBits p n ++ List.replicate (padBits n) false)

/-- R47: payloads that differ only in stream bits [0,5) have the same outcome and the same storage frame. -/
def Obligations.CmrAndReservedBitAreIgnored : Prop :=
  ∀ (v : Variant) (p q : List Byte), p.length = q.length → (∀ i, 5 ≤ i → pbit p i = pbit q i) →
    transcode v p = transcode v q

/-- R80: no bit outside [5, 10+n) can matter; a longer payload has the frame of its shortest accepted prefix; and the first 61
bytes decide the outcome of every payload. -/
def Obligations.OnlyHeaderAndSpeechBitsMatter : Prop :=
  (∀ (v : Variant) (p f : List Byte) (n : Nat), rom v (payloadFrameType p) = some n → transcode v p = .accepted f →
    (∀ q, 10 + n ≤ bitLength q → (∀ i, 5 ≤ i → i < 10 + n → pbit q i = pbit p i) → transcode v q = .accepted f) ∧
    transcode v (p.take ((10 + n + 7) / 8)) = .accepted f) ∧
  ∀ (v : Variant) (p : List Byte), transcode v (p.take 61) = transcode v p

/-! ### The commands -/

/-- R84: BEGIN in every phase, for every variant code and every answer of the sink, and with an illegal command word. The
model's choices in it: the sink's account `sinkScript` and `sinkDraws` (log entry 2), the destination's bytes after a failed
append (log entry 3), and that in IDLE the magic header is added to OUT, by R84's SinkAppend, where R22's words set OUT (log
entry 16). -/
def Obligations.BeginOpensTheRun : Prop :=
  ∀ (s : State) (v : BitVec 2),
    (s.phase = .halted →
      exec (.beginRun v) s = .next { s with lastStatus := .halted, responses := s.responses ++ [0x60, 0x00] }) ∧
    (s.phase = .opened →
      exec (.beginRun v) s = .next { s with lastStatus := .sequence, responses := s.responses ++ [0x50, 0x00] }) ∧
    (s.phase = .idle → v = 0b10#2 ∨ v = 0b11#2 →
      exec (.beginRun v) s = .next
        { s with
          phase := .halted, haltCause := .invalidVariant, lastStatus := .invalidVariant
          responses := s.responses ++ [0x30, 0x00] }) ∧
    (s.phase = .idle → v = 0b00#2 → s.nextAnswer = .ok →
      exec (.beginRun v) s = .next
        { s with
          variant := .nb, phase := .opened, lastStatus := .ok, responses := s.responses ++ [0x00, 0x06]
          out := s.out ++ [0x23, 0x21, 0x41, 0x4D, 0x52, 0x0A], sinkFile := [0x23, 0x21, 0x41, 0x4D, 0x52, 0x0A]
          sinkScript := s.sinkScript.tail, sinkDraws := s.sinkDraws + 1 }) ∧
    (s.phase = .idle → v = 0b01#2 → s.nextAnswer = .ok →
      exec (.beginRun v) s = .next
        { s with
          variant := .wb, phase := .opened, lastStatus := .ok, responses := s.responses ++ [0x00, 0x09]
          out := s.out ++ [0x23, 0x21, 0x41, 0x4D, 0x52, 0x2D, 0x57, 0x42, 0x0A]
          sinkFile := [0x23, 0x21, 0x41, 0x4D, 0x52, 0x2D, 0x57, 0x42, 0x0A]
          sinkScript := s.sinkScript.tail, sinkDraws := s.sinkDraws + 1 }) ∧
    (∀ x k, s.phase = .idle → v = variantCode x → s.nextAnswer = .fail k →
      ∃ file, exec (.beginRun v) s = .next
        { s with
          variant := x, phase := .halted, haltCause := .sinkUnavailable, lastStatus := .sinkUnavailable
          responses := s.responses ++ [0x40, 0x00], out := s.out ++ (magic x).take k, sinkFile := file
          sinkScript := s.sinkScript.tail, sinkDraws := s.sinkDraws + 1 }) ∧
    (∀ (cw : Word) (rest : List Byte), cw &&& 0xF000#16 = 0x1000#16 → cw &&& 0x03FF#16 ≠ 0#16 → s.datapath = none →
      s.input = wordBytes cw ++ rest →
      step s = .next
        { s with input := rest, lastStatus := .illegalCmd, responses := s.responses ++ [0x70, 0x00] })

/-- R86: SUBMIT in every phase, for every result of the transcoder and every answer of the sink, and with an illegal command
word. The datapath is empty afterwards (R24). The model's choices in it: the sink's account `sinkScript` and `sinkDraws` (log
entry 2), the destination's bytes after a failed append (log entry 3), and a payload that the datapath already held is replaced,
or left where the transcoder is not reached (log entry 24). -/
def Obligations.SubmitAppendsOrDrops : Prop :=
  ∀ (s : State) (p : List Byte),
    (s.phase = .halted →
      exec (.submit p) s = .next { s with lastStatus := .halted, responses := s.responses ++ [0x60, 0x00] }) ∧
    (s.phase = .idle →
      exec (.submit p) s = .next { s with lastStatus := .sequence, responses := s.responses ++ [0x50, 0x00] }) ∧
    (s.phase = .opened → transcode s.variant p = .skipped →
      exec (.submit p) s = .next
        { s with datapath := none, lastStatus := .skipped, responses := s.responses ++ [0x10, 0x00] }) ∧
    (s.phase = .opened → transcode s.variant p = .failed →
      exec (.submit p) s = .next
        { s with datapath := none, lastStatus := .failed, responses := s.responses ++ [0x20, 0x00] }) ∧
    (∀ f, s.phase = .opened → transcode s.variant p = .accepted f → s.nextAnswer = .ok →
      exec (.submit p) s = .next
        { s with
          datapath := none, lastStatus := .ok, responses := s.responses ++ [0x00, BitVec.ofNat 8 f.length]
          out := s.out ++ f, sinkFile := s.sinkFile ++ f
          sinkScript := s.sinkScript.tail, sinkDraws := s.sinkDraws + 1 }) ∧
    (∀ f k, s.phase = .opened → transcode s.variant p = .accepted f → s.nextAnswer = .fail k →
      ∃ file, exec (.submit p) s = .next
        { s with
          datapath := none, phase := .halted, haltCause := .sinkUnavailable, lastStatus := .sinkUnavailable
          responses := s.responses ++ [0x40, 0x00], out := s.out ++ f.take k, sinkFile := file
          sinkScript := s.sinkScript.tail, sinkDraws := s.sinkDraws + 1 }) ∧
    (∀ (cw len : Word) (q rest : List Byte), cw &&& 0xF000#16 = 0x2000#16 → cw ≠ 0x2000#16 → s.datapath = none →
      q.length = len.toNat → s.input = wordBytes cw ++ wordBytes len ++ q ++ rest →
      step s = .next
        { s with input := rest, lastStatus := .illegalCmd, responses := s.responses ++ [0x70, 0x00] })

/-- R68: LOOKUP in every phase and for every operand, and with an illegal command word. -/
def Obligations.LookupReadsTheRom : Prop :=
  ∀ (s : State) (v : BitVec 2) (ft : BitVec 4),
    (v = 0b10#2 ∨ v = 0b11#2 →
      exec (.lookup v ft) s = .next
        { s with lastStatus := .invalidVariant, responses := s.responses ++ [0x30, 0x00] }) ∧
    (∀ x n, v = variantCode x → rom x ft = some n →
      exec (.lookup v ft) s = .next
        { s with lastStatus := .ok, responses := s.responses ++ wordBytes (BitVec.ofNat 16 n) }) ∧
    (∀ x, v = variantCode x → rom x ft = none →
      exec (.lookup v ft) s = .next { s with lastStatus := .skipped, responses := s.responses ++ [0x10, 0x00] }) ∧
    (∀ (cw : Word) (rest : List Byte), cw &&& 0xF000#16 = 0x3000#16 → cw &&& 0x03F0#16 ≠ 0#16 → s.datapath = none →
      s.input = wordBytes cw ++ rest →
      step s = .next
        { s with input := rest, lastStatus := .illegalCmd, responses := s.responses ++ [0x70, 0x00] })

/-- R82: TRANSCODE in every phase, for every variant code and every result of the transcoder, and with an illegal command word.
The frame goes to the host and nothing to the sink. The datapath is empty after a payload was transcoded (R24); that a payload
it already held is replaced then, and left where the variant is invalid, is the model's choice (log entry 24). -/
def Obligations.TranscodeAnswersTheFrame : Prop :=
  ∀ (s : State) (v : BitVec 2) (p : List Byte),
    (v = 0b10#2 ∨ v = 0b11#2 →
      exec (.transcode v p) s = .next
        { s with lastStatus := .invalidVariant, responses := s.responses ++ [0x30, 0x00] }) ∧
    (∀ x f, v = variantCode x → transcode x p = .accepted f →
      exec (.transcode v p) s = .next
        { s with
          datapath := none, lastStatus := .ok
          responses := s.responses ++ [0x00, BitVec.ofNat 8 f.length] ++ f }) ∧
    (∀ x, v = variantCode x → transcode x p = .skipped →
      exec (.transcode v p) s = .next
        { s with datapath := none, lastStatus := .skipped, responses := s.responses ++ [0x10, 0x00] }) ∧
    (∀ x, v = variantCode x → transcode x p = .failed →
      exec (.transcode v p) s = .next
        { s with datapath := none, lastStatus := .failed, responses := s.responses ++ [0x20, 0x00] }) ∧
    (∀ (cw len : Word) (q rest : List Byte), cw &&& 0xF000#16 = 0x4000#16 → cw &&& 0x03FF#16 ≠ 0#16 →
      s.datapath = none → q.length = len.toNat → s.input = wordBytes cw ++ wordBytes len ++ q ++ rest →
      step s = .next
        { s with input := rest, lastStatus := .illegalCmd, responses := s.responses ++ [0x70, 0x00] })

/-- R90: STATUS answers the STAT word and writes no state, in every phase; an illegal STATUS word answers 0x7000. -/
def Obligations.StatusAnswersStat : Prop :=
  ∀ (s : State),
    exec .status s = .next { s with responses := s.responses ++ wordBytes (statWord s) } ∧
    (∀ (cw : Word) (rest : List Byte), cw &&& 0xF000#16 = 0x5000#16 → cw ≠ 0x5000#16 → s.datapath = none →
      s.input = wordBytes cw ++ rest →
      step s = .next
        { s with input := rest, lastStatus := .illegalCmd, responses := s.responses ++ [0x70, 0x00] })

/-! ### The frame-type rows -/

/-- R79 with the table of R49, for ft0Nb to ft8Nb and ft0Wb to ft9Wb: with a payload of at least the row's minimum length in the
datapath (log entry 6), the row completes the command with the row's frame. The payload's own header word need not be the
row's: that the row's variant, frame type and Q are used then is the model's choice (log entry 22). -/
def Obligations.AcceptedFrameTypeRowsComplete : Prop :=
  ∀ r ∈ nbFrameRows ++ wbFrameRows, ∀ (h : FrameHeader) (s : State) (d : Datapath) (f : List Byte),
    s.datapath = some d → r.minPayload ≤ d.payload.length →
    f = (r.header ||| h.q.setWidth 8 <<< 2) ::
      pack (speechBits d.payload r.bits ++ List.replicate r.pad false) →
    f.length = r.frameBytes ∧
    (d.client = .transcode →
      exec (r.row h) s = .next
        { s with
          datapath := none, lastStatus := .ok
          responses := s.responses ++ [0x00, BitVec.ofNat 8 r.frameBytes] ++ f }) ∧
    (d.client = .submit → s.nextAnswer = .ok →
      exec (r.row h) s = .next
        { s with
          datapath := none, lastStatus := .ok, responses := s.responses ++ [0x00, BitVec.ofNat 8 r.frameBytes]
          out := s.out ++ f, sinkFile := s.sinkFile ++ f
          sinkScript := s.sinkScript.tail, sinkDraws := s.sinkDraws + 1 }) ∧
    (∀ k, d.client = .submit → s.nextAnswer = .fail k →
      ∃ file, exec (r.row h) s = .next
        { s with
          datapath := none, phase := .halted, haltCause := .sinkUnavailable, lastStatus := .sinkUnavailable
          responses := s.responses ++ [0x40, 0x00], out := s.out ++ f.take k, sinkFile := file
          sinkScript := s.sinkScript.tail, sinkDraws := s.sinkDraws + 1 })

/-- R74 with the minimum lengths of R49: with a shorter payload an accepted row ends the command FAILED and appends nothing.
A payload in the datapath is log entry 6; that the row is run on any short payload, whatever its own header word, is the model's
choice (log entry 22). -/
def Obligations.ShortPayloadFailsInTheRow : Prop :=
  ∀ r ∈ nbFrameRows ++ wbFrameRows, ∀ (h : FrameHeader) (s : State) (d : Datapath),
    s.datapath = some d → d.payload.length < r.minPayload →
    exec (r.row h) s = .next
      { s with datapath := none, lastStatus := .failed, responses := s.responses ++ [0x20, 0x00] }

/-- R73 for ft9Nb to ft15Nb and ft10Wb to ft15Wb: the row ends the command SKIPPED and appends nothing, whatever the payload
in the datapath (log entry 6). That a payload with another header word, or with none (0 or 1 bytes), is skipped by the row too is
the model's choice (log entry 22): a step decodes no row from such a payload and ends it FAILED (R71), as
RowsImplementTheTranscoder says. -/
def Obligations.SkippedFrameTypeRowsComplete : Prop :=
  ∀ row ∈ skippedRows, ∀ (h : FrameHeader) (s : State) (d : Datapath), s.datapath = some d →
    exec (row h) s = .next
      { s with datapath := none, lastStatus := .skipped, responses := s.responses ++ [0x10, 0x00] }

/-- The rows are what the transcoder of R79 does: from any state with a payload in the datapath, a step ends its command with
the result of `transcode` on that payload (R71 included, where no row is decoded). The middle of a command as a state is the
model's choice (log entry 6). -/
def Obligations.RowsImplementTheTranscoder : Prop :=
  ∀ (s : State) (d : Datapath), s.datapath = some d →
    step s = .next (s.finish d.client (transcode d.variant d.payload))

/-- SUBMIT and TRANSCODE run the row of their payload's header word: the command in one step is the row run on the loaded
payload (R79, R82, R86; log entry 6). -/
def Obligations.PayloadCommandsRunTheirRow : Prop :=
  ∀ (s : State) (p : List Byte) (i : Instr),
    (s.phase = .opened → decodeHeader s.variant p = some i →
      exec (.submit p) s = exec i { s with datapath := some ⟨.submit, s.variant, p⟩ }) ∧
    ∀ (x : Variant), decodeHeader x p = some i →
      exec (.transcode (variantCode x) p) s = exec i { s with datapath := some ⟨.transcode, x, p⟩ }

/-! ### Whole-machine rules -/

/-- The stream invariant of R92, with R16 to R19 and R24, is kept by every step, a reset included. -/
def Obligations.StepKeepsTheStreamInvariant : Prop :=
  ∀ (s t : State), Inv s → step s = .next t → Inv t

/-- The invariant holds after reset. -/
def Obligations.ResetMeetsTheStreamInvariant : Prop :=
  Inv State.reset

/-- R22: between resets OUT only grows, and only BEGIN and SUBMIT change it. -/
def Obligations.OutIsAppendOnly : Prop :=
  ∀ (s t : State), s.datapath = none → ¬ ResetComes s → step s = .next t →
    s.out <+: t.out ∧
    (t.out ≠ s.out →
      (∃ v rest, decode s.input = .command (.beginRun v) rest) ∨ ∃ p rest, decode s.input = .command (.submit p) rest)

/-- R17: VARIANT changes only by a BEGIN with a valid code that leaves IDLE, which stores that code; until reset. -/
def Obligations.VariantIsWrittenOnce : Prop :=
  ∀ (s t : State), ¬ ResetComes s → step s = .next t → t.variant ≠ s.variant →
    s.phase = .idle ∧ t.phase ≠ .idle ∧
    ∃ x rest, decode s.input = .command (.beginRun (variantCode x)) rest ∧ t.variant = x

/-- R16: the only transitions of PHASE without a reset. -/
def Obligations.PhaseTransitions : Prop :=
  ∀ (s t : State), s.datapath = none → ¬ ResetComes s → step s = .next t → t.phase ≠ s.phase →
    (s.phase = .idle ∧
      (∃ v rest, decode s.input = .command (.beginRun v) rest) ∧
      ((t.phase = .opened ∧ t.lastStatus = .ok) ∨
        (t.phase = .halted ∧ (t.lastStatus = .invalidVariant ∨ t.lastStatus = .sinkUnavailable)))) ∨
    (s.phase = .opened ∧ (∃ p rest, decode s.input = .command (.submit p) rest) ∧
      t.phase = .halted ∧ t.lastStatus = .sinkUnavailable)

/-- R18: every command but a legal STATUS writes LAST_STATUS with the status it returns, never NONE; STATUS leaves it. -/
def Obligations.LastStatusIsTheReturnedStatus : Prop :=
  ∀ (i : Instr) (s t : State), i.isCommand = true → exec i s = .next t →
    (i = .status → t.lastStatus = s.lastStatus) ∧
    (i ≠ .status → t.lastStatus ≠ .noCommand ∧
      ∃ data more, data ≤ 477 ∧ t.responses = s.responses ++ wordBytes (responseWord t.lastStatus data) ++ more)

/-- R100: in HALTED, OUT, VARIANT, HALT_CAUSE and the sink stay as they are until a reset, whatever the host sends; BEGIN and
SUBMIT return HALTED and do nothing else. -/
def Obligations.HaltedLastsUntilReset : Prop :=
  ∀ (s : State), s.phase = .halted →
    (∀ t, s.datapath = none → ¬ ResetComes s → step s = .next t →
      t.phase = .halted ∧ t.haltCause = s.haltCause ∧ t.out = s.out ∧ t.variant = s.variant ∧ t.sinkFile = s.sinkFile ∧
        t.sinkDraws = s.sinkDraws) ∧
    (∀ v, exec (.beginRun v) s = .next { s with lastStatus := .halted, responses := s.responses ++ [0x60, 0x00] }) ∧
    ∀ p, exec (.submit p) s = .next { s with lastStatus := .halted, responses := s.responses ++ [0x60, 0x00] }

/-- R34: after a failed append OUT is OUT before and a prefix of the attempted bytes, and every prefix is possible. -/
def Obligations.FailedAppendLeavesAnyPrefix : Prop :=
  ∀ (s : State), (∀ (x : Variant), s.phase = .idle →
      (∀ t, exec (.beginRun (variantCode x)) s = .next t → t.lastStatus = .sinkUnavailable →
        ∃ k, k ≤ (magic x).length ∧ t.out = s.out ++ (magic x).take k ∧ t.phase = .halted) ∧
      ∀ k, k ≤ (magic x).length → ∃ t, exec (.beginRun (variantCode x)) { s with sinkScript := [.fail k] } = .next t ∧
        t.out = s.out ++ (magic x).take k ∧ t.phase = .halted ∧ t.haltCause = .sinkUnavailable) ∧
    ∀ (p f : List Byte), s.phase = .opened → transcode s.variant p = .accepted f →
      (∀ t, exec (.submit p) s = .next t → t.lastStatus = .sinkUnavailable →
        ∃ k, k ≤ f.length ∧ t.out = s.out ++ f.take k ∧ t.phase = .halted) ∧
      ∀ k, k ≤ f.length → ∃ t, exec (.submit p) { s with sinkScript := [.fail k] } = .next t ∧
        t.out = s.out ++ f.take k ∧ t.phase = .halted ∧ t.haltCause = .sinkUnavailable

/-- R103: a SUBMIT whose payload is skipped or truncated leaves PHASE OPEN, and the next SUBMIT does what it would have done
without it, but for the dropped payload's response. -/
def Obligations.DroppedPayloadLeavesNoTrace : Prop :=
  ∀ (s : State) (p q : List Byte), s.phase = .opened → s.datapath = none → (∀ f, transcode s.variant p ≠ .accepted f) →
    ∃ t u w, exec (.submit p) s = .next t ∧ t.phase = .opened ∧ exec (.submit q) t = .next u ∧
      exec (.submit q) s = .next w ∧ ∃ answer tail, u = { w with responses := s.responses ++ answer ++ tail } ∧
        w.responses = s.responses ++ tail ∧ (answer = [0x10, 0x00] ∨ answer = [0x20, 0x00])

/-- R89: SUBMITs run one after the other on a sink that accepts every append leave OUT as it was followed by the accepted
payloads' frames, at most one each, in the order of the SUBMITs; after a BEGIN, immediately after the magic header. -/
def Obligations.FramesAppearInSubmitOrder : Prop :=
  (∀ (payloads : List (List Byte)) (s : State), s.phase = .opened → payloads.length ≤ s.sinkScript.length →
    (∀ a ∈ s.sinkScript, a = .ok) →
    ∃ t, runAll (payloads.map .submit) s = .next t ∧ t.phase = .opened ∧
      t.out = s.out ++ (payloads.filterMap (acceptedFrame s.variant)).flatten) ∧
  ∀ (x : Variant) (payloads : List (List Byte)) (s : State), s.phase = .idle → s.out = [] →
    payloads.length < s.sinkScript.length → (∀ a ∈ s.sinkScript, a = .ok) →
    ∃ t, runAll (.beginRun (variantCode x) :: payloads.map .submit) s = .next t ∧ t.phase = .opened ∧
      t.out = magic x ++ (payloads.filterMap (acceptedFrame x)).flatten

/-- R91: a run whose BEGIN succeeded and whose payloads are all dropped has exactly the magic header as its file, in OUT and in
the sink; a BEGIN with an invalid variant leaves OUT empty and does not use the sink. -/
def Obligations.EmptyRunIsTheMagicHeader : Prop :=
  (∀ (x : Variant) (payloads : List (List Byte)) (s : State), s.phase = .idle → s.out = [] → s.nextAnswer = .ok →
    (∀ p ∈ payloads, acceptedFrame x p = none) →
    ∃ t, runAll (.beginRun (variantCode x) :: payloads.map .submit) s = .next t ∧ t.phase = .opened ∧
      t.out = magic x ∧ t.sinkFile = magic x) ∧
  ∀ (v : BitVec 2) (s : State), s.phase = .idle → s.out = [] → v = 0b10#2 ∨ v = 0b11#2 →
    ∃ t, exec (.beginRun v) s = .next t ∧ t.phase = .halted ∧ t.out = [] ∧ t.sinkFile = s.sinkFile ∧
      t.sinkDraws = s.sinkDraws

/-- R31, R50, R62: a reader that takes the variant from the magic header's bytes and each frame's length from its header byte, by
the table of R49 and not by the codec ROM, finds the frames that the transcoder made of the accepted payloads, in order: after
the magic header of either variant, in the OUT of a whole run, and in the OUT of any state in OPEN that meets the invariant.
The sink's listed answers are log entry 2. -/
def Obligations.StorageFileReadsBack : Prop :=
  (∀ (v : Variant) (payloads : List (List Byte)),
    readStorageFile (magic v ++ (payloads.filterMap (acceptedFrame v)).flatten) =
      some (v, payloads.filterMap (acceptedFrame v))) ∧
  (∀ (x : Variant) (payloads : List (List Byte)) (s : State), s.phase = .idle → s.out = [] →
    payloads.length < s.sinkScript.length → (∀ a ∈ s.sinkScript, a = .ok) →
    ∃ t, runAll (.beginRun (variantCode x) :: payloads.map .submit) s = .next t ∧
      readStorageFile t.out = some (x, payloads.filterMap (acceptedFrame x))) ∧
  ∀ (s : State), Inv s → s.phase = .opened →
    ∃ frames, readStorageFile s.out = some (s.variant, frames) ∧ ∀ f ∈ frames, isStorageFrame s.variant f = true
end

