-- ==== Sys2Proof/Laws/State.lean ====
section
/-! SUPPORT. What each state update does to each field of State: one lemma per field and update, so that no proof unfolds a
record update. -/

namespace Sys2Proof.Machine

/-! ### respond -/

@[simp] theorem State.respond_phase (st : Status) (data : Nat) (s : State) :
    (s.respond st data).phase = s.phase := rfl
@[simp] theorem State.respond_variant (st : Status) (data : Nat) (s : State) :
    (s.respond st data).variant = s.variant := rfl
@[simp] theorem State.respond_lastStatus (st : Status) (data : Nat) (s : State) :
    (s.respond st data).lastStatus = st := rfl
@[simp] theorem State.respond_haltCause (st : Status) (data : Nat) (s : State) :
    (s.respond st data).haltCause = s.haltCause := rfl
@[simp] theorem State.respond_out (st : Status) (data : Nat) (s : State) :
    (s.respond st data).out = s.out := rfl
@[simp] theorem State.respond_datapath (st : Status) (data : Nat) (s : State) :
    (s.respond st data).datapath = s.datapath := rfl
@[simp] theorem State.respond_input (st : Status) (data : Nat) (s : State) :
    (s.respond st data).input = s.input := rfl
@[simp] theorem State.respond_laterRuns (st : Status) (data : Nat) (s : State) :
    (s.respond st data).laterRuns = s.laterRuns := rfl
@[simp] theorem State.respond_responses (st : Status) (data : Nat) (s : State) :
    (s.respond st data).responses = s.responses ++ wordBytes (responseWord st data) := rfl
@[simp] theorem State.respond_sinkFile (st : Status) (data : Nat) (s : State) :
    (s.respond st data).sinkFile = s.sinkFile := rfl
@[simp] theorem State.respond_sinkScript (st : Status) (data : Nat) (s : State) :
    (s.respond st data).sinkScript = s.sinkScript := rfl
@[simp] theorem State.respond_sinkDraws (st : Status) (data : Nat) (s : State) :
    (s.respond st data).sinkDraws = s.sinkDraws := rfl

/-! ### respondStat -/

@[simp] theorem State.respondStat_phase (s : State) :
    s.respondStat.phase = s.phase := rfl
@[simp] theorem State.respondStat_variant (s : State) :
    s.respondStat.variant = s.variant := rfl
@[simp] theorem State.respondStat_lastStatus (s : State) :
    s.respondStat.lastStatus = s.lastStatus := rfl
@[simp] theorem State.respondStat_haltCause (s : State) :
    s.respondStat.haltCause = s.haltCause := rfl
@[simp] theorem State.respondStat_out (s : State) :
    s.respondStat.out = s.out := rfl
@[simp] theorem State.respondStat_datapath (s : State) :
    s.respondStat.datapath = s.datapath := rfl
@[simp] theorem State.respondStat_input (s : State) :
    s.respondStat.input = s.input := rfl
@[simp] theorem State.respondStat_laterRuns (s : State) :
    s.respondStat.laterRuns = s.laterRuns := rfl
@[simp] theorem State.respondStat_responses (s : State) :
    s.respondStat.responses = s.responses ++ wordBytes (statWord s) := rfl
@[simp] theorem State.respondStat_sinkFile (s : State) :
    s.respondStat.sinkFile = s.sinkFile := rfl
@[simp] theorem State.respondStat_sinkScript (s : State) :
    s.respondStat.sinkScript = s.sinkScript := rfl
@[simp] theorem State.respondStat_sinkDraws (s : State) :
    s.respondStat.sinkDraws = s.sinkDraws := rfl

/-! ### sendBytes -/

@[simp] theorem State.sendBytes_phase (f : List Byte) (s : State) :
    (s.sendBytes f).phase = s.phase := rfl
@[simp] theorem State.sendBytes_variant (f : List Byte) (s : State) :
    (s.sendBytes f).variant = s.variant := rfl
@[simp] theorem State.sendBytes_lastStatus (f : List Byte) (s : State) :
    (s.sendBytes f).lastStatus = s.lastStatus := rfl
@[simp] theorem State.sendBytes_haltCause (f : List Byte) (s : State) :
    (s.sendBytes f).haltCause = s.haltCause := rfl
@[simp] theorem State.sendBytes_out (f : List Byte) (s : State) :
    (s.sendBytes f).out = s.out := rfl
@[simp] theorem State.sendBytes_datapath (f : List Byte) (s : State) :
    (s.sendBytes f).datapath = s.datapath := rfl
@[simp] theorem State.sendBytes_input (f : List Byte) (s : State) :
    (s.sendBytes f).input = s.input := rfl
@[simp] theorem State.sendBytes_laterRuns (f : List Byte) (s : State) :
    (s.sendBytes f).laterRuns = s.laterRuns := rfl
@[simp] theorem State.sendBytes_responses (f : List Byte) (s : State) :
    (s.sendBytes f).responses = s.responses ++ f := rfl
@[simp] theorem State.sendBytes_sinkFile (f : List Byte) (s : State) :
    (s.sendBytes f).sinkFile = s.sinkFile := rfl
@[simp] theorem State.sendBytes_sinkScript (f : List Byte) (s : State) :
    (s.sendBytes f).sinkScript = s.sinkScript := rfl
@[simp] theorem State.sendBytes_sinkDraws (f : List Byte) (s : State) :
    (s.sendBytes f).sinkDraws = s.sinkDraws := rfl

/-! ### illegalCommand -/

@[simp] theorem State.illegalCommand_phase (s : State) :
    s.illegalCommand.phase = s.phase := rfl
@[simp] theorem State.illegalCommand_variant (s : State) :
    s.illegalCommand.variant = s.variant := rfl
@[simp] theorem State.illegalCommand_lastStatus (s : State) :
    s.illegalCommand.lastStatus = .illegalCmd := rfl
@[simp] theorem State.illegalCommand_haltCause (s : State) :
    s.illegalCommand.haltCause = s.haltCause := rfl
@[simp] theorem State.illegalCommand_out (s : State) :
    s.illegalCommand.out = s.out := rfl
@[simp] theorem State.illegalCommand_datapath (s : State) :
    s.illegalCommand.datapath = s.datapath := rfl
@[simp] theorem State.illegalCommand_input (s : State) :
    s.illegalCommand.input = s.input := rfl
@[simp] theorem State.illegalCommand_laterRuns (s : State) :
    s.illegalCommand.laterRuns = s.laterRuns := rfl
@[simp] theorem State.illegalCommand_responses (s : State) :
    s.illegalCommand.responses = s.responses ++ [0x70, 0x00] := rfl
@[simp] theorem State.illegalCommand_sinkFile (s : State) :
    s.illegalCommand.sinkFile = s.sinkFile := rfl
@[simp] theorem State.illegalCommand_sinkScript (s : State) :
    s.illegalCommand.sinkScript = s.sinkScript := rfl
@[simp] theorem State.illegalCommand_sinkDraws (s : State) :
    s.illegalCommand.sinkDraws = s.sinkDraws := rfl

/-! ### halt -/

@[simp] theorem State.halt_phase (c : HaltCause) (s : State) :
    (s.halt c).phase = .halted := rfl
@[simp] theorem State.halt_variant (c : HaltCause) (s : State) :
    (s.halt c).variant = s.variant := rfl
@[simp] theorem State.halt_lastStatus (c : HaltCause) (s : State) :
    (s.halt c).lastStatus = s.lastStatus := rfl
@[simp] theorem State.halt_haltCause (c : HaltCause) (s : State) :
    (s.halt c).haltCause = c := rfl
@[simp] theorem State.halt_out (c : HaltCause) (s : State) :
    (s.halt c).out = s.out := rfl
@[simp] theorem State.halt_datapath (c : HaltCause) (s : State) :
    (s.halt c).datapath = s.datapath := rfl
@[simp] theorem State.halt_input (c : HaltCause) (s : State) :
    (s.halt c).input = s.input := rfl
@[simp] theorem State.halt_laterRuns (c : HaltCause) (s : State) :
    (s.halt c).laterRuns = s.laterRuns := rfl
@[simp] theorem State.halt_responses (c : HaltCause) (s : State) :
    (s.halt c).responses = s.responses := rfl
@[simp] theorem State.halt_sinkFile (c : HaltCause) (s : State) :
    (s.halt c).sinkFile = s.sinkFile := rfl
@[simp] theorem State.halt_sinkScript (c : HaltCause) (s : State) :
    (s.halt c).sinkScript = s.sinkScript := rfl
@[simp] theorem State.halt_sinkDraws (c : HaltCause) (s : State) :
    (s.halt c).sinkDraws = s.sinkDraws := rfl

/-! ### haltInvalidVariant -/

@[simp] theorem State.haltInvalidVariant_phase (s : State) :
    s.haltInvalidVariant.phase = .halted := rfl
@[simp] theorem State.haltInvalidVariant_variant (s : State) :
    s.haltInvalidVariant.variant = s.variant := rfl
@[simp] theorem State.haltInvalidVariant_lastStatus (s : State) :
    s.haltInvalidVariant.lastStatus = .invalidVariant := rfl
@[simp] theorem State.haltInvalidVariant_haltCause (s : State) :
    s.haltInvalidVariant.haltCause = .invalidVariant := rfl
@[simp] theorem State.haltInvalidVariant_out (s : State) :
    s.haltInvalidVariant.out = s.out := rfl
@[simp] theorem State.haltInvalidVariant_datapath (s : State) :
    s.haltInvalidVariant.datapath = s.datapath := rfl
@[simp] theorem State.haltInvalidVariant_input (s : State) :
    s.haltInvalidVariant.input = s.input := rfl
@[simp] theorem State.haltInvalidVariant_laterRuns (s : State) :
    s.haltInvalidVariant.laterRuns = s.laterRuns := rfl
@[simp] theorem State.haltInvalidVariant_responses (s : State) :
    s.haltInvalidVariant.responses = s.responses ++ [0x30, 0x00] := rfl
@[simp] theorem State.haltInvalidVariant_sinkFile (s : State) :
    s.haltInvalidVariant.sinkFile = s.sinkFile := rfl
@[simp] theorem State.haltInvalidVariant_sinkScript (s : State) :
    s.haltInvalidVariant.sinkScript = s.sinkScript := rfl
@[simp] theorem State.haltInvalidVariant_sinkDraws (s : State) :
    s.haltInvalidVariant.sinkDraws = s.sinkDraws := rfl

/-! ### appendOk -/

@[simp] theorem State.appendOk_phase (creating : Bool) (bytes : List Byte) (s : State) :
    (s.appendOk creating bytes).phase = s.phase := rfl
@[simp] theorem State.appendOk_variant (creating : Bool) (bytes : List Byte) (s : State) :
    (s.appendOk creating bytes).variant = s.variant := rfl
@[simp] theorem State.appendOk_lastStatus (creating : Bool) (bytes : List Byte) (s : State) :
    (s.appendOk creating bytes).lastStatus = s.lastStatus := rfl
@[simp] theorem State.appendOk_haltCause (creating : Bool) (bytes : List Byte) (s : State) :
    (s.appendOk creating bytes).haltCause = s.haltCause := rfl
@[simp] theorem State.appendOk_out (creating : Bool) (bytes : List Byte) (s : State) :
    (s.appendOk creating bytes).out = s.out ++ bytes := rfl
@[simp] theorem State.appendOk_datapath (creating : Bool) (bytes : List Byte) (s : State) :
    (s.appendOk creating bytes).datapath = s.datapath := rfl
@[simp] theorem State.appendOk_input (creating : Bool) (bytes : List Byte) (s : State) :
    (s.appendOk creating bytes).input = s.input := rfl
@[simp] theorem State.appendOk_laterRuns (creating : Bool) (bytes : List Byte) (s : State) :
    (s.appendOk creating bytes).laterRuns = s.laterRuns := rfl
@[simp] theorem State.appendOk_responses (creating : Bool) (bytes : List Byte) (s : State) :
    (s.appendOk creating bytes).responses = s.responses := rfl
@[simp] theorem State.appendOk_sinkFile (creating : Bool) (bytes : List Byte) (s : State) :
    (s.appendOk creating bytes).sinkFile = if creating then bytes else s.sinkFile ++ bytes := rfl
@[simp] theorem State.appendOk_sinkScript (creating : Bool) (bytes : List Byte) (s : State) :
    (s.appendOk creating bytes).sinkScript = s.sinkScript.tail := rfl
@[simp] theorem State.appendOk_sinkDraws (creating : Bool) (bytes : List Byte) (s : State) :
    (s.appendOk creating bytes).sinkDraws = s.sinkDraws + 1 := rfl

/-! ### appendFailed -/

@[simp] theorem State.appendFailed_phase (k : Nat) (bytes : List Byte) (s : State) :
    (s.appendFailed k bytes).phase = .halted := rfl
@[simp] theorem State.appendFailed_variant (k : Nat) (bytes : List Byte) (s : State) :
    (s.appendFailed k bytes).variant = s.variant := rfl
@[simp] theorem State.appendFailed_lastStatus (k : Nat) (bytes : List Byte) (s : State) :
    (s.appendFailed k bytes).lastStatus = .sinkUnavailable := rfl
@[simp] theorem State.appendFailed_haltCause (k : Nat) (bytes : List Byte) (s : State) :
    (s.appendFailed k bytes).haltCause = .sinkUnavailable := rfl
@[simp] theorem State.appendFailed_out (k : Nat) (bytes : List Byte) (s : State) :
    (s.appendFailed k bytes).out = s.out ++ bytes.take k := rfl
@[simp] theorem State.appendFailed_datapath (k : Nat) (bytes : List Byte) (s : State) :
    (s.appendFailed k bytes).datapath = s.datapath := rfl
@[simp] theorem State.appendFailed_input (k : Nat) (bytes : List Byte) (s : State) :
    (s.appendFailed k bytes).input = s.input := rfl
@[simp] theorem State.appendFailed_laterRuns (k : Nat) (bytes : List Byte) (s : State) :
    (s.appendFailed k bytes).laterRuns = s.laterRuns := rfl
@[simp] theorem State.appendFailed_responses (k : Nat) (bytes : List Byte) (s : State) :
    (s.appendFailed k bytes).responses = s.responses ++ [0x40, 0x00] := rfl
@[simp] theorem State.appendFailed_sinkFile (k : Nat) (bytes : List Byte) (s : State) :
    (s.appendFailed k bytes).sinkFile = Config.sinkFileAfterFailure s.sinkDraws := rfl
@[simp] theorem State.appendFailed_sinkScript (k : Nat) (bytes : List Byte) (s : State) :
    (s.appendFailed k bytes).sinkScript = s.sinkScript.tail := rfl
@[simp] theorem State.appendFailed_sinkDraws (k : Nat) (bytes : List Byte) (s : State) :
    (s.appendFailed k bytes).sinkDraws = s.sinkDraws + 1 := rfl

/-! ### loadPayload -/

@[simp] theorem State.loadPayload_phase (c : Client) (v : Variant) (p : List Byte) (s : State) :
    (s.loadPayload c v p).phase = s.phase := rfl
@[simp] theorem State.loadPayload_variant (c : Client) (v : Variant) (p : List Byte) (s : State) :
    (s.loadPayload c v p).variant = s.variant := rfl
@[simp] theorem State.loadPayload_lastStatus (c : Client) (v : Variant) (p : List Byte) (s : State) :
    (s.loadPayload c v p).lastStatus = s.lastStatus := rfl
@[simp] theorem State.loadPayload_haltCause (c : Client) (v : Variant) (p : List Byte) (s : State) :
    (s.loadPayload c v p).haltCause = s.haltCause := rfl
@[simp] theorem State.loadPayload_out (c : Client) (v : Variant) (p : List Byte) (s : State) :
    (s.loadPayload c v p).out = s.out := rfl
@[simp] theorem State.loadPayload_datapath (c : Client) (v : Variant) (p : List Byte) (s : State) :
    (s.loadPayload c v p).datapath = some { client := c, variant := v, payload := p } := rfl
@[simp] theorem State.loadPayload_input (c : Client) (v : Variant) (p : List Byte) (s : State) :
    (s.loadPayload c v p).input = s.input := rfl
@[simp] theorem State.loadPayload_laterRuns (c : Client) (v : Variant) (p : List Byte) (s : State) :
    (s.loadPayload c v p).laterRuns = s.laterRuns := rfl
@[simp] theorem State.loadPayload_responses (c : Client) (v : Variant) (p : List Byte) (s : State) :
    (s.loadPayload c v p).responses = s.responses := rfl
@[simp] theorem State.loadPayload_sinkFile (c : Client) (v : Variant) (p : List Byte) (s : State) :
    (s.loadPayload c v p).sinkFile = s.sinkFile := rfl
@[simp] theorem State.loadPayload_sinkScript (c : Client) (v : Variant) (p : List Byte) (s : State) :
    (s.loadPayload c v p).sinkScript = s.sinkScript := rfl
@[simp] theorem State.loadPayload_sinkDraws (c : Client) (v : Variant) (p : List Byte) (s : State) :
    (s.loadPayload c v p).sinkDraws = s.sinkDraws := rfl

/-! ### advance -/

@[simp] theorem State.advance_phase (rest : List Byte) (s : State) :
    (s.advance rest).phase = s.phase := rfl
@[simp] theorem State.advance_variant (rest : List Byte) (s : State) :
    (s.advance rest).variant = s.variant := rfl
@[simp] theorem State.advance_lastStatus (rest : List Byte) (s : State) :
    (s.advance rest).lastStatus = s.lastStatus := rfl
@[simp] theorem State.advance_haltCause (rest : List Byte) (s : State) :
    (s.advance rest).haltCause = s.haltCause := rfl
@[simp] theorem State.advance_out (rest : List Byte) (s : State) :
    (s.advance rest).out = s.out := rfl
@[simp] theorem State.advance_datapath (rest : List Byte) (s : State) :
    (s.advance rest).datapath = s.datapath := rfl
@[simp] theorem State.advance_input (rest : List Byte) (s : State) :
    (s.advance rest).input = rest := rfl
@[simp] theorem State.advance_laterRuns (rest : List Byte) (s : State) :
    (s.advance rest).laterRuns = s.laterRuns := rfl
@[simp] theorem State.advance_responses (rest : List Byte) (s : State) :
    (s.advance rest).responses = s.responses := rfl
@[simp] theorem State.advance_sinkFile (rest : List Byte) (s : State) :
    (s.advance rest).sinkFile = s.sinkFile := rfl
@[simp] theorem State.advance_sinkScript (rest : List Byte) (s : State) :
    (s.advance rest).sinkScript = s.sinkScript := rfl
@[simp] theorem State.advance_sinkDraws (rest : List Byte) (s : State) :
    (s.advance rest).sinkDraws = s.sinkDraws := rfl

/-! ### hardReset -/

@[simp] theorem State.hardReset_phase (run : List Byte) (later : List (List Byte)) (s : State) :
    (s.hardReset run later).phase = .idle := rfl
@[simp] theorem State.hardReset_variant (run : List Byte) (later : List (List Byte)) (s : State) :
    (s.hardReset run later).variant = .nb := rfl
@[simp] theorem State.hardReset_lastStatus (run : List Byte) (later : List (List Byte)) (s : State) :
    (s.hardReset run later).lastStatus = .noCommand := rfl
@[simp] theorem State.hardReset_haltCause (run : List Byte) (later : List (List Byte)) (s : State) :
    (s.hardReset run later).haltCause = .notHalted := rfl
@[simp] theorem State.hardReset_out (run : List Byte) (later : List (List Byte)) (s : State) :
    (s.hardReset run later).out = [] := rfl
@[simp] theorem State.hardReset_datapath (run : List Byte) (later : List (List Byte)) (s : State) :
    (s.hardReset run later).datapath = none := rfl
@[simp] theorem State.hardReset_input (run : List Byte) (later : List (List Byte)) (s : State) :
    (s.hardReset run later).input = run := rfl
@[simp] theorem State.hardReset_laterRuns (run : List Byte) (later : List (List Byte)) (s : State) :
    (s.hardReset run later).laterRuns = later := rfl
@[simp] theorem State.hardReset_responses (run : List Byte) (later : List (List Byte)) (s : State) :
    (s.hardReset run later).responses = s.responses := rfl
@[simp] theorem State.hardReset_sinkFile (run : List Byte) (later : List (List Byte)) (s : State) :
    (s.hardReset run later).sinkFile = s.sinkFile := rfl
@[simp] theorem State.hardReset_sinkScript (run : List Byte) (later : List (List Byte)) (s : State) :
    (s.hardReset run later).sinkScript = s.sinkScript := rfl
@[simp] theorem State.hardReset_sinkDraws (run : List Byte) (later : List (List Byte)) (s : State) :
    (s.hardReset run later).sinkDraws = s.sinkDraws := rfl

end Sys2Proof.Machine
end

