-- ==== Sys2Proof/Laws/Ops.lean ====
section
/-! SUPPORT. What each shared operation can do, said once: the append by the sink's answer, the end of a payload command by its
result, and the inversion of BEGIN, SUBMIT, the frame-type rows and the step. -/

namespace Sys2Proof.Machine

/-! ### The sink -/

/-- The next answer depends on the script and the count of appends alone. -/
theorem nextAnswer_congr {s t : State} (h1 : t.sinkScript = s.sinkScript) (h2 : t.sinkDraws = s.sinkDraws) :
    t.nextAnswer = s.nextAnswer := by
  simp only [State.nextAnswer, h1, h2]

/-- A script that is not used up gives the next answer. -/
theorem nextAnswer_of_cons {s : State} {a : SinkAnswer} {as : List SinkAnswer} (h : s.sinkScript = a :: as) :
    s.nextAnswer = a := by
  simp only [State.nextAnswer, h]

theorem beginStream_of_ok {v : Variant} {s : State} (h : s.nextAnswer = .ok) :
    s.beginStream v =
      ({ { s with variant := v }.appendOk true (magic v) with phase := .opened }).respond .ok (magic v).length := by
  simp only [State.beginStream, h]

theorem beginStream_of_fail {v : Variant} {k : Nat} {s : State} (h : s.nextAnswer = .fail k) :
    s.beginStream v = { s with variant := v }.appendFailed k (magic v) := by
  simp only [State.beginStream, h]

theorem appendFrame_of_ok {f : List Byte} {s : State} (h : s.nextAnswer = .ok) :
    s.appendFrame f = (s.appendOk false f).respond .ok f.length := by
  simp only [State.appendFrame, h]

theorem appendFrame_of_fail {f : List Byte} {k : Nat} {s : State} (h : s.nextAnswer = .fail k) :
    s.appendFrame f = s.appendFailed k f := by
  simp only [State.appendFrame, h]

/-! ### The end of a payload command -/

theorem finish_skipped (c : Client) (s : State) :
    s.finish c .skipped = { s with datapath := none }.respond .skipped 0 := rfl

theorem finish_failed (c : Client) (s : State) :
    s.finish c .failed = { s with datapath := none }.respond .failed 0 := rfl

theorem finish_transcode (f : List Byte) (s : State) :
    s.finish .transcode (.accepted f) = ({ s with datapath := none }.respond .ok f.length).sendBytes f := rfl

theorem finish_submit (f : List Byte) (s : State) :
    s.finish .submit (.accepted f) = { s with datapath := none }.appendFrame f := rfl

/-- The end of a command does not look at what the datapath held. -/
@[simp] theorem finish_loadPayload (c c' : Client) (v : Variant) (p : List Byte) (r : TranscodeResult) (s : State) :
    (s.loadPayload c v p).finish c' r = s.finish c' r := by
  cases r <;> cases c' <;> rfl

/-- A payload loaded and run at once is the command's end with the transcoder's result. -/
theorem runDatapath_loadPayload (c : Client) (v : Variant) (p : List Byte) (s : State) :
    (s.loadPayload c v p).runDatapath = s.finish c (transcode v p) := by
  simp [State.runDatapath]

/-- Every field but those an append, a response and the halt write is as it was after a payload command; the datapath is
empty (R24). -/
theorem finish_frame (c : Client) (r : TranscodeResult) (s : State) :
    (s.finish c r).datapath = none ∧ (s.finish c r).variant = s.variant ∧ (s.finish c r).input = s.input ∧
      (s.finish c r).laterRuns = s.laterRuns := by
  cases r with
  | skipped => simp [finish_skipped]
  | failed => simp [finish_failed]
  | accepted f =>
    cases c with
    | transcode => simp [finish_transcode]
    | submit =>
      rw [finish_submit]
      cases h : State.nextAnswer { s with datapath := none } with
      | ok => simp [appendFrame_of_ok h]
      | fail k => simp [appendFrame_of_fail h]

/-- What the end of a payload command does to the run: nothing, a whole frame appended, or a cut frame and the halt; the
latter two only for a SUBMIT whose payload is accepted (R33, R34). -/
theorem finish_cases (c : Client) (r : TranscodeResult) (s : State) :
    ((s.finish c r).phase = s.phase ∧ (s.finish c r).haltCause = s.haltCause ∧ (s.finish c r).out = s.out ∧
        (s.finish c r).sinkFile = s.sinkFile ∧ (s.finish c r).sinkDraws = s.sinkDraws ∧
        (s.finish c r).lastStatus ≠ .noCommand ∧ (c = .transcode ∨ ∀ f, r ≠ .accepted f)) ∨
    (∃ f, c = .submit ∧ r = .accepted f ∧ (s.finish c r).phase = s.phase ∧ (s.finish c r).haltCause = s.haltCause ∧
        (s.finish c r).out = s.out ++ f ∧ (s.finish c r).sinkFile = s.sinkFile ++ f ∧
        (s.finish c r).lastStatus = .ok) ∨
    (∃ f k, c = .submit ∧ r = .accepted f ∧ (s.finish c r).phase = .halted ∧
        (s.finish c r).haltCause = .sinkUnavailable ∧ (s.finish c r).out = s.out ++ f.take k ∧
        (s.finish c r).lastStatus = .sinkUnavailable) := by
  cases r with
  | skipped => simp [finish_skipped]
  | failed => simp [finish_failed]
  | accepted f =>
    cases c with
    | transcode => simp [finish_transcode]
    | submit =>
      rw [finish_submit]
      cases h : State.nextAnswer { s with datapath := none } with
      | ok => right; left; exact ⟨f, by simp [appendFrame_of_ok h]⟩
      | fail k => right; right; exact ⟨f, k, by simp [appendFrame_of_fail h]⟩

/-! ### The commands -/

/-- The variant codes: 00 and 01 name a variant, 10 and 11 none (R57). -/
theorem variantOf_variantCode (x : Variant) : variantOf (variantCode x) = some x := by
  cases x <;> rfl

theorem variantOf_eq_some {v : BitVec 2} {x : Variant} : variantOf v = some x ↔ v = variantCode x := by
  revert v; cases x <;> decide

theorem variantOf_eq_none {v : BitVec 2} : variantOf v = none ↔ v = 0b10#2 ∨ v = 0b11#2 := by
  revert v; decide

/-- BEGIN answers a next state, and which: refused without effect, the invalid-variant halt, the opened run, or the failed
append of the magic header (R84). -/
theorem execBegin_cases {v : BitVec 2} {s t : State} (h : execBegin v s = .next t) :
    (s.phase = .halted ∧ t = s.respond .halted 0) ∨ (s.phase = .opened ∧ t = s.respond .sequence 0) ∨
    (s.phase = .idle ∧ variantOf v = none ∧ t = s.haltInvalidVariant) ∨
    (∃ x, s.phase = .idle ∧ variantOf v = some x ∧ s.nextAnswer = .ok ∧
      t = ({ { s with variant := x }.appendOk true (magic x) with phase := .opened }).respond .ok (magic x).length) ∨
    (∃ x k, s.phase = .idle ∧ variantOf v = some x ∧ s.nextAnswer = .fail k ∧
      t = { s with variant := x }.appendFailed k (magic x)) := by
  simp only [execBegin] at h
  split at h
  · next hp => cases h; exact .inl ⟨hp, rfl⟩
  · next hp => cases h; exact .inr (.inl ⟨hp, rfl⟩)
  · next hp =>
    split at h
    · next hv => cases h; exact .inr (.inr (.inl ⟨hp, hv, rfl⟩))
    · next x hv =>
      cases h
      cases ha : s.nextAnswer with
      | ok => exact .inr (.inr (.inr (.inl ⟨x, hp, hv, rfl, beginStream_of_ok ha⟩)))
      | fail k => exact .inr (.inr (.inr (.inr ⟨x, k, hp, hv, rfl, beginStream_of_fail ha⟩)))

/-- SUBMIT answers a next state, and which: refused without effect, or the end of the payload command (R86). -/
theorem execSubmit_cases {p : List Byte} {s t : State} (h : execSubmit p s = .next t) :
    (s.phase = .halted ∧ t = s.respond .halted 0) ∨ (s.phase = .idle ∧ t = s.respond .sequence 0) ∨
    (s.phase = .opened ∧ t = s.finish .submit (transcode s.variant p)) := by
  simp only [execSubmit] at h
  split at h
  · next hp => cases h; exact .inl ⟨hp, rfl⟩
  · next hp => cases h; exact .inr (.inl ⟨hp, rfl⟩)
  · next hp => cases h; exact .inr (.inr ⟨hp, runDatapath_loadPayload ..⟩)

/-- TRANSCODE answers a next state, and which (R82). -/
theorem execTranscode_cases {v : BitVec 2} {p : List Byte} {s t : State} (h : execTranscode v p s = .next t) :
    (variantOf v = none ∧ t = s.respond .invalidVariant 0) ∨
    ∃ x, variantOf v = some x ∧ t = s.finish .transcode (transcode x p) := by
  simp only [execTranscode] at h
  split at h
  · next hv => cases h; exact .inl ⟨hv, rfl⟩
  · next x hv => cases h; exact .inr ⟨x, hv, runDatapath_loadPayload ..⟩

/-- LOOKUP answers a next state, and which (R68). -/
theorem execLookup_cases {v : BitVec 2} {ft : BitVec 4} {s t : State} (h : execLookup v ft s = .next t) :
    (variantOf v = none ∧ t = s.respond .invalidVariant 0) ∨
    (∃ x n, variantOf v = some x ∧ rom x ft = some n ∧ t = s.respond .ok n) ∨
    ∃ x, variantOf v = some x ∧ rom x ft = none ∧ t = s.respond .skipped 0 := by
  simp only [execLookup] at h
  split at h
  · next hv => cases h; exact .inl ⟨hv, rfl⟩
  · next x hv =>
    split at h
    · next n hn => cases h; exact .inr (.inl ⟨x, n, hv, hn, rfl⟩)
    · next hn => cases h; exact .inr (.inr ⟨x, hv, hn, rfl⟩)

/-- Every command answers a next state, in every state (R101). -/
theorem exec_command_next {i : Instr} (hi : i.isCommand = true) (s : State) : ∃ t, exec i s = .next t := by
  cases i <;> simp only [Instr.isCommand, Bool.false_eq_true] at hi <;>
    simp only [exec, execBegin, execSubmit, execLookup, execTranscode, execStatus] <;>
    (try split) <;> (try split) <;> exact ⟨_, rfl⟩

/-- No command reads or writes the stream of bytes not yet read: the step has moved past the command before (R52). -/
theorem exec_input {i : Instr} (hi : i.isCommand = true) {s t : State} (h : exec i s = .next t) : t.input = s.input := by
  cases i <;> simp only [Instr.isCommand, Bool.false_eq_true] at hi
  · obtain ⟨-, rfl⟩ | ⟨-, rfl⟩ | ⟨-, -, rfl⟩ | ⟨x, -, -, -, rfl⟩ | ⟨x, k, -, -, -, rfl⟩ := execBegin_cases h <;> simp
  · obtain ⟨-, rfl⟩ | ⟨-, rfl⟩ | ⟨-, rfl⟩ := execSubmit_cases h <;> simp [(finish_frame _ _ _).2.2.1]
  · obtain ⟨-, rfl⟩ | ⟨x, n, -, -, rfl⟩ | ⟨x, -, -, rfl⟩ := execLookup_cases h <;> simp
  · obtain ⟨-, rfl⟩ | ⟨x, -, rfl⟩ := execTranscode_cases h <;> simp [(finish_frame _ _ _).2.2.1]
  · simp only [exec, execStatus, Host.Outcome.next.injEq] at h
    subst h
    simp

/-- SUBMIT in an open run ends its payload command with the transcoder's result (R86). -/
theorem exec_submit_of_opened {s : State} (p : List Byte) (h : s.phase = .opened) :
    exec (.submit p) s = .next (s.finish .submit (transcode s.variant p)) := by
  simp only [exec, execSubmit, h, runDatapath_loadPayload]

/-! ### The frame-type rows -/

/-- The row of a variant and a frame type has the shared meaning with that variant and frame type (R45, R79). -/
theorem exec_frameTypeRow (v : Variant) (ft : BitVec 4) (h : FrameHeader) (s : State) :
    exec (frameTypeRow v ft h) s = runFrameType v ft h s := by
  cases v <;> revert ft <;> intro ft <;> obtain ⟨⟨n, hn⟩⟩ := ft <;> simp only [Nat.reducePow] at hn <;>
    interval_cases n <;> rfl

/-- The shared meaning on a loaded payload. -/
theorem runFrameType_of_some {v : Variant} {ft : BitVec 4} {h : FrameHeader} {s : State} {d : Datapath}
    (hd : s.datapath = some d) :
    runFrameType v ft h s = .next (s.finish d.client (frameTypeResult v ft h.q d.payload)) := by
  simp only [runFrameType, hd]

/-! ### The step -/

/-- What a step does: run a row on the payload in the datapath, or end a payload with no header word; otherwise run a command,
reject an illegal command word, wait, or be reset. -/
theorem step_cases {s t : State} (h : step s = .next t) :
    (∃ d i, s.datapath = some d ∧ decodeHeader d.variant d.payload = some i ∧ exec i s = .next t) ∨
    (∃ d, s.datapath = some d ∧ decodeHeader d.variant d.payload = none ∧ t = s.runDatapath) ∨
    (∃ i rest, s.datapath = none ∧ decode s.input = .command i rest ∧ exec i (s.advance rest) = .next t) ∨
    (∃ cw rest, s.datapath = none ∧ decode s.input = .illegal cw rest ∧ t = (s.advance rest).illegalCommand) ∨
    (s.datapath = none ∧ decode s.input = .incomplete ∧ s.laterRuns = [] ∧ t = s) ∨
    (∃ run later, s.datapath = none ∧ decode s.input = .incomplete ∧ s.laterRuns = run :: later ∧
      t = s.hardReset run later) := by
  unfold step at h
  split at h
  · next d hd =>
    split at h
    · next i hi => exact .inl ⟨d, i, hd, hi, h⟩
    · next hi => cases h; exact .inr (.inl ⟨d, hd, hi, rfl⟩)
  · next hd =>
    split at h
    · next i rest hi => exact .inr (.inr (.inl ⟨i, rest, hd, hi, h⟩))
    · next cw rest hi => cases h; exact .inr (.inr (.inr (.inl ⟨cw, rest, hd, hi, rfl⟩)))
    · next hi =>
      cases h
      cases hl : s.laterRuns with
      | nil => exact .inr (.inr (.inr (.inr (.inl ⟨hd, hi, rfl, by simp only [State.waitOrReset, hl]⟩))))
      | cons run later =>
        exact .inr (.inr (.inr (.inr (.inr ⟨run, later, hd, hi, rfl, by simp only [State.waitOrReset, hl]⟩))))

end Sys2Proof.Machine
end

