-- ==== Sys2Proof/Laws/Decode.lean ====
section
/-! SUPPORT. Words in the byte streams, the fields of the command word, the two spellings of legality (the fields of R55 and the
masks of the opcode table), and the decoder of the command stream on a stream whose words are known. -/

namespace Sys2Proof

open Safety Machine

/-! ### Words and bytes -/

/-- The bits of a word are those of its two bytes, the first byte in the high half (R52). -/
theorem wordOfBytes_getLsbD (b0 b1 : Byte) (i : Nat) :
    (wordOfBytes b0 b1).getLsbD i = if i < 8 then b1.getLsbD i else b0.getLsbD (i - 8) :=
  BitVec.getLsbD_append

/-- Two bytes put together and taken apart again (R52). -/
theorem wordOfBytes_extract (w : Word) : wordOfBytes (w.extractLsb' 8 8) (w.extractLsb' 0 8) = w := by
  apply BitVec.eq_of_getLsbD_eq
  intro i hi
  rw [wordOfBytes_getLsbD]
  split
  · next h => simp [h]
  · next h => simp [show i - 8 < 8 by omega, show 8 + (i - 8) = i by omega]

/-- The bytes of the word of two bytes are those bytes (R52). -/
theorem wordBytes_wordOfBytes (b0 b1 : Byte) : wordBytes (wordOfBytes b0 b1) = [b0, b1] := by
  simp only [wordBytes, List.cons.injEq, and_true]
  constructor <;>
  · apply BitVec.eq_of_getLsbD_eq
    intro i hi
    rw [BitVec.getLsbD_extractLsb', wordOfBytes_getLsbD]
    simp [hi]

/-! ### The fields of the command word -/

/-- The bits of a word given by its four command word fields (R53). -/
theorem fields_getLsbD (op : BitVec 4) (v : BitVec 2) (r : BitVec 6) (f : BitVec 4) (i : Nat) :
    BitVec.getLsbD (w := 16) (op ++ v ++ r ++ f) i =
      if i < 4 then f.getLsbD i else if i < 10 then r.getLsbD (i - 4)
      else if i < 12 then v.getLsbD (i - 10) else op.getLsbD (i - 12) := by
  refine (BitVec.getLsbD_append (x := op ++ v ++ r) (y := f)).trans ?_
  simp only [BitVec.getLsbD_append]
  split_ifs <;> first | rfl | omega

/-- A command word is its four fields (R53). -/
theorem word_of_fields (cw : Word) : cwOp cw ++ cwVariant cw ++ cwReserved cw ++ cwFrameType cw = cw := by
  apply BitVec.eq_of_getLsbD_eq
  intro i hi
  rw [fields_getLsbD]
  simp only [cwOp, cwVariant, cwReserved, cwFrameType, BitVec.getLsbD_extractLsb']
  split_ifs with h1 h2 h3
  · simp [h1]
  · simp [show i - 4 < 6 by omega, show 4 + (i - 4) = i by omega]
  · simp [show i ≤ 11 by omega, show 10 + (i - 10) = i by omega]
  · simp [show i - 12 < 4 by omega, show 12 + (i - 12) = i by omega]

/-- Two command words with the same fields are the same word (R53). -/
theorem word_eq_iff (a b : Word) : a = b ↔
    cwOp a = cwOp b ∧ cwVariant a = cwVariant b ∧ cwReserved a = cwReserved b ∧ cwFrameType a = cwFrameType b := by
  constructor
  · rintro rfl; simp
  · rintro ⟨h1, h2, h3, h4⟩; rw [← word_of_fields a, ← word_of_fields b, h1, h2, h3, h4]

/-- The fields of a command word built from its fields (R53). -/
theorem commandWord_fields (op : BitVec 4) (v : BitVec 2) (ft : BitVec 4) :
    cwOp (commandWord op v ft) = op ∧ cwVariant (commandWord op v ft) = v ∧
      cwReserved (commandWord op v ft) = 0 ∧ cwFrameType (commandWord op v ft) = ft := by
  refine ⟨?_, ?_, ?_, ?_⟩ <;>
  · apply BitVec.eq_of_getLsbD_eq
    intro i hi
    simp only [cwOp, cwVariant, cwReserved, cwFrameType, commandWord, BitVec.getLsbD_extractLsb', fields_getLsbD]
    split_ifs <;> first | omega | simp [hi]

/-- A command word with reserved field 0 is built from its other fields (R53). -/
theorem commandWord_of_fields {cw : Word} (h : cwReserved cw = 0#6) :
    commandWord (cwOp cw) (cwVariant cw) (cwFrameType cw) = cw := by
  rw [commandWord, ← h]; exact word_of_fields cw

/-- A masked word, field by field. -/
theorem and_fields (a b : Word) : cwOp (a &&& b) = cwOp a &&& cwOp b ∧ cwVariant (a &&& b) = cwVariant a &&& cwVariant b ∧
    cwReserved (a &&& b) = cwReserved a &&& cwReserved b ∧ cwFrameType (a &&& b) = cwFrameType a &&& cwFrameType b := by
  refine ⟨?_, ?_, ?_, ?_⟩ <;> exact BitVec.extractLsb'_and

/-- A mask comparison, field by field. -/
theorem masked_eq_iff (cw m w : Word) : cw &&& m = w ↔
    cwOp cw &&& cwOp m = cwOp w ∧ cwVariant cw &&& cwVariant m = cwVariant w ∧
      cwReserved cw &&& cwReserved m = cwReserved w ∧ cwFrameType cw &&& cwFrameType m = cwFrameType w := by
  obtain ⟨h1, h2, h3, h4⟩ := and_fields cw m
  rw [word_eq_iff, h1, h2, h3, h4]

/-- A 4-bit or 6-bit value masked with ones is itself. -/
theorem and_ones (a : BitVec 4) (b : BitVec 6) : a &&& 15#4 = a ∧ b &&& 63#6 = b :=
  ⟨BitVec.and_allOnes, BitVec.and_allOnes⟩

/-- OP 0x2 and 0x4 by masks and by the field (R56). -/
theorem hasPayload_iff (cw : Word) : HasPayload cw ↔ takesPayload cw = true := by
  simp only [HasPayload, masked_eq_iff, takesPayload]
  generalize cwOp cw = op
  simp [cwOp, cwVariant, cwReserved, cwFrameType, (and_ones op 0).1]

/-- The legal words by the opcode table's masks are those of R55's fields. -/
theorem tableLegal_iff (cw : Word) : TableLegal cw ↔ legalCommand cw = true := by
  simp only [TableLegal, masked_eq_iff, word_eq_iff cw, legalCommand]
  generalize cwOp cw = op; generalize cwVariant cw = v; generalize cwReserved cw = r; generalize cwFrameType cw = f
  simp only [cwOp, cwVariant, cwReserved, cwFrameType, BitVec.reduceExtractLsb', (and_ones op r).1, (and_ones op r).2,
    (and_ones f r).1, BitVec.and_zero, true_and, and_true]
  obtain ⟨⟨n, hn⟩⟩ := op
  simp only [Nat.reducePow] at hn
  interval_cases n <;> simp [← BitVec.toNat_inj] <;> tauto

/-! ### The decoder on known words -/

/-- The decoder reads the first word and goes by OP (R56). -/
theorem decode_wordBytes (cw : Word) (rest : List Byte) :
    decode (wordBytes cw ++ rest) =
      if takesPayload cw = true then fetchPayload cw rest else fetchedCommand cw [] rest := by
  simp only [wordBytes, List.cons_append, List.nil_append, decode, wordOfBytes_extract]

/-- The length word and a payload of that length are read whole (R56). -/
theorem fetchPayload_wordBytes (cw len : Word) (p rest : List Byte) (h : p.length = len.toNat) :
    fetchPayload cw (wordBytes len ++ p ++ rest) = fetchedCommand cw p rest := by
  simp only [wordBytes, List.cons_append, List.nil_append, fetchPayload, wordOfBytes_extract]
  rw [if_pos (by simp [h]), ← h, List.take_left, List.drop_left]

/-- A whole payload command in the stream, legal or not (R56). -/
theorem decode_payloadCommand {cw len : Word} {p rest : List Byte} (hp : takesPayload cw = true)
    (h : p.length = len.toNat) :
    decode (wordBytes cw ++ wordBytes len ++ p ++ rest) = fetchedCommand cw p rest := by
  rw [show wordBytes cw ++ wordBytes len ++ p ++ rest = wordBytes cw ++ (wordBytes len ++ p ++ rest) by simp,
    decode_wordBytes, if_pos hp, fetchPayload_wordBytes _ _ _ _ h]

/-- A one-word command in the stream, legal or not (R56). -/
theorem decode_wordCommand {cw : Word} {rest : List Byte} (hp : takesPayload cw = false) :
    decode (wordBytes cw ++ rest) = fetchedCommand cw [] rest := by
  rw [decode_wordBytes, hp]; rfl

/-- An illegal command word is rejected by name (R55). -/
theorem fetchedCommand_illegal {cw : Word} {p rest : List Byte} (h : legalCommand cw = false) :
    fetchedCommand cw p rest = .illegal cw rest := by
  simp [fetchedCommand, commandOf, h]

/-- A legal command word is a command (R55). -/
theorem fetchedCommand_legal {cw : Word} {p rest : List Byte} (h : legalCommand cw = true) :
    ∃ i, commandOf cw p = some i ∧ fetchedCommand cw p rest = .command i rest := by
  have h2 := h
  simp only [legalCommand] at h2
  suffices hs : ∃ i, commandOf cw p = some i by
    obtain ⟨i, hi⟩ := hs
    exact ⟨i, hi, by simp [fetchedCommand, hi]⟩
  simp only [commandOf, h, if_true]
  split at h2 <;> simp_all

/-- What a command word can decode to, with the fields each command fixes (R54, R55). -/
theorem commandOf_cases {cw : Word} {p : List Byte} {i : Instr} (h : commandOf cw p = some i) :
    (takesPayload cw = false ∧ ∃ v, i = .beginRun v ∧ cw = commandWord 0x1#4 v 0) ∨
    (takesPayload cw = true ∧ i = .submit p ∧ cw = commandWord 0x2#4 0 0) ∨
    (takesPayload cw = false ∧ ∃ v ft, i = .lookup v ft ∧ cw = commandWord 0x3#4 v ft) ∨
    (takesPayload cw = true ∧ ∃ v, i = .transcode v p ∧ cw = commandWord 0x4#4 v 0) ∨
    (takesPayload cw = false ∧ i = .status ∧ cw = commandWord 0x5#4 0 0) := by
  simp only [commandOf] at h
  split at h
  · next hl =>
    simp only [legalCommand] at hl
    have op_eq : ∀ n : BitVec 4, (cwOp cw).toNat = n.toNat → cwOp cw = n := fun n hn => BitVec.eq_of_toNat_eq hn
    split at h
    · next hop =>
      have ho := op_eq 1#4 hop
      simp only [hop, Bool.and_eq_true, beq_iff_eq] at hl
      have key := commandWord_of_fields hl.1
      rw [ho, hl.2] at key
      cases h
      exact .inl ⟨by simp [takesPayload, ho], _, rfl, key.symm⟩
    · next hop =>
      have ho := op_eq 2#4 hop
      simp only [hop, Bool.and_eq_true, beq_iff_eq] at hl
      have key := commandWord_of_fields hl.1.2
      rw [ho, hl.2, hl.1.1] at key
      cases h
      exact .inr (.inl ⟨by simp [takesPayload, ho], rfl, key.symm⟩)
    · next hop =>
      have ho := op_eq 3#4 hop
      simp only [hop, beq_iff_eq] at hl
      have key := commandWord_of_fields hl
      rw [ho] at key
      cases h
      exact .inr (.inr (.inl ⟨by simp [takesPayload, ho], _, _, rfl, key.symm⟩))
    · next hop =>
      have ho := op_eq 4#4 hop
      simp only [hop, Bool.and_eq_true, beq_iff_eq] at hl
      have key := commandWord_of_fields hl.1
      rw [ho, hl.2] at key
      cases h
      exact .inr (.inr (.inr (.inl ⟨by simp [takesPayload, ho], _, rfl, key.symm⟩)))
    · next hop =>
      have ho := op_eq 5#4 hop
      simp only [hop, Bool.and_eq_true, beq_iff_eq] at hl
      have key := commandWord_of_fields hl.1.2
      rw [ho, hl.2, hl.1.1] at key
      cases h
      exact .inr (.inr (.inr (.inr ⟨by simp [takesPayload, ho], rfl, key.symm⟩)))
    · cases h
  · cases h

/-- Where a decoded command came from: its command word, and for OP 0x2 and 0x4 its length word and payload (R56). -/
theorem decode_cases {bytes : List Byte} {i : Instr} {rest : List Byte} (h : decode bytes = .command i rest) :
    ∃ cw p, commandOf cw p = some i ∧
      ((takesPayload cw = false ∧ p = [] ∧ bytes = wordBytes cw ++ rest) ∨
        (takesPayload cw = true ∧
          ∃ len : Word, p.length = len.toNat ∧ bytes = wordBytes cw ++ wordBytes len ++ p ++ rest)) := by
  have fetched : ∀ cw p r, fetchedCommand cw p r = .command i rest → commandOf cw p = some i ∧ r = rest := by
    intro cw p r hf
    simp only [fetchedCommand] at hf
    split at hf <;> cases hf
    next hc => exact ⟨hc, rfl⟩
  match bytes, h with
  | b0 :: b1 :: tail, h =>
    simp only [decode] at h
    split at h
    · next hp =>
      match tail, h with
      | l0 :: l1 :: more, h =>
        simp only [fetchPayload] at h
        split at h
        · next hl =>
          obtain ⟨hc, hr⟩ := fetched _ _ _ h
          refine ⟨_, _, hc, .inr ⟨hp, wordOfBytes l0 l1, by simp [hl], ?_⟩⟩
          rw [wordBytes_wordOfBytes, wordBytes_wordOfBytes, ← hr]
          simp
        · cases h
    · next hp =>
      obtain ⟨hc, hr⟩ := fetched _ _ _ h
      exact ⟨_, _, hc, .inl ⟨by simpa using hp, rfl, by rw [wordBytes_wordOfBytes, hr]; rfl⟩⟩

/-- The decoder of the command stream answers commands only (R54). -/
theorem decode_isCommand {bytes : List Byte} {i : Instr} {rest : List Byte} (h : decode bytes = .command i rest) :
    i.isCommand = true := by
  obtain ⟨cw, p, hc, -⟩ := decode_cases h
  obtain ⟨-, v, rfl, -⟩ | ⟨-, rfl, -⟩ | ⟨-, v, ft, rfl, -⟩ | ⟨-, v, rfl, -⟩ | ⟨-, rfl, -⟩ := commandOf_cases hc <;> rfl

/-- OP 0x2 and 0x4 alone take a payload (R56). -/
theorem takesPayload_commandWord (op : BitVec 4) (v : BitVec 2) (ft : BitVec 4) :
    takesPayload (commandWord op v ft) = (op == 0x2#4 || op == 0x4#4) := by
  simp only [takesPayload, (commandWord_fields op v ft).1]

/-- A length that fits LEN is the length word's value (R56). -/
theorem payloadFits_toNat {p : List Byte} (h : payloadFits p = true) : p.length = (BitVec.ofNat 16 p.length).toNat := by
  simp only [payloadFits, decide_eq_true_eq] at h
  simp only [BitVec.toNat_ofNat]
  omega

/-- OP of a word known by its masked high nibble (R53). -/
theorem cwOp_of_masked {cw w : Word} (h : cw &&& 0xF000#16 = w) : cwOp cw = cwOp w := by
  have := congrArg cwOp h
  rwa [(and_fields _ _).1, show cwOp (0xF000#16) = 15#4 by decide, (and_ones (cwOp cw) 0).1] at this

/-- A step at an illegal command word has R55's effect and no other. -/
theorem step_of_illegal {s : State} {cw : Word} {rest : List Byte} (hd : s.datapath = none)
    (h : decode s.input = .illegal cw rest) : step s = .next (s.advance rest).illegalCommand := by
  simp only [step, hd, h]

/-! ### The payload header word (R45) -/

/-- The header decoder's answer is the row of the first two bytes' word. -/
theorem decodeHeader_cases {v : Variant} {p : List Byte} {i : Instr} (h : decodeHeader v p = some i) :
    ∃ b0 b1 rest, p = b0 :: b1 :: rest ∧
      i = frameTypeRow v (hwFrameType (wordOfBytes b0 b1)) (hwHeader (wordOfBytes b0 b1)) := by
  match p, h with
  | b0 :: b1 :: rest, h =>
    simp only [decodeHeader, Option.some.injEq] at h
    exact ⟨b0, b1, rest, rfl, h.symm⟩

/-- The bits of a header word, field by field. -/
theorem headerWord_getLsbD (ft : BitVec 4) (h : FrameHeader) (i : Nat) :
    (headerWord ft h).getLsbD i =
      if i < 6 then h.lead.getLsbD i else if i < 7 then h.q.getLsbD (i - 6)
      else if i < 11 then ft.getLsbD (i - 7) else if i < 12 then h.rsv.getLsbD (i - 11) else h.cmr.getLsbD (i - 12) := by
  refine (BitVec.getLsbD_append (x := h.cmr ++ h.rsv ++ ft ++ h.q) (y := h.lead)).trans ?_
  simp only [BitVec.getLsbD_append]
  split_ifs <;> first | rfl | omega

/-- FT of a header word. -/
theorem hwFrameType_headerWord (ft : BitVec 4) (h : FrameHeader) : hwFrameType (headerWord ft h) = ft := by
  apply BitVec.eq_of_getLsbD_eq
  intro i hi
  simp only [hwFrameType, BitVec.getLsbD_extractLsb', headerWord_getLsbD]
  split_ifs <;> first | omega | simp [hi]

/-- The other fields of a header word. -/
theorem hwHeader_headerWord (ft : BitVec 4) (h : FrameHeader) : hwHeader (headerWord ft h) = h := by
  obtain ⟨c, r, q, l⟩ := h
  simp only [hwHeader, FrameHeader.mk.injEq]
  refine ⟨?_, ?_, ?_, ?_⟩ <;>
  · apply BitVec.eq_of_getLsbD_eq
    intro i hi
    simp only [BitVec.getLsbD_extractLsb', headerWord_getLsbD]
    split_ifs <;> first | omega | simp [hi]

/-- A header word is made of its fields: no bit is outside them. -/
theorem headerWord_of_fields (hw : Word) : headerWord (hwFrameType hw) (hwHeader hw) = hw := by
  apply BitVec.eq_of_getLsbD_eq
  intro i hi
  rw [headerWord_getLsbD]
  simp only [hwFrameType, hwHeader, BitVec.getLsbD_extractLsb']
  split_ifs with h1 h2 h3 h4
  · simp [h1]
  · simp [show i = 6 by omega]
  · simp [show i - 7 < 4 by omega, show 7 + (i - 7) = i by omega]
  · simp [show i = 11 by omega]
  · simp [show i - 12 < 4 by omega, show 12 + (i - 12) = i by omega]

/-- The encoding of a frame-type row is its header word. -/
theorem encode_frameTypeRow (v : Variant) (ft : BitVec 4) (h : FrameHeader) :
    encode (frameTypeRow v ft h) = wordBytes (headerWord ft h) := by
  cases v <;> revert ft <;> intro ft <;> obtain ⟨⟨n, hn⟩⟩ := ft <;> simp only [Nat.reducePow] at hn <;>
    interval_cases n <;> rfl

/-- A frame-type row is no command. -/
theorem frameTypeRow_isCommand (v : Variant) (ft : BitVec 4) (h : FrameHeader) :
    (frameTypeRow v ft h).isCommand = false := by
  cases v <;> revert ft <;> intro ft <;> obtain ⟨⟨n, hn⟩⟩ := ft <;> simp only [Nat.reducePow] at hn <;>
    interval_cases n <;> rfl

end Sys2Proof
end

