-- ==== Sys2Proof/Laws/Frame.lean ====
section
/-! SUPPORT. Stream bits of byte lists (R8), packing (R11), the codec ROM (R66, R83) beside the frame table (R49), what the
transcoder accepts (R79), and the response words of status OK (R58). -/

namespace Sys2Proof.Machine

/-! ### Stream bits -/

/-- The first byte's bits, most significant first (R8). -/
theorem pbit_head (b : Byte) (p : List Byte) {i : Nat} (h : i < 8) : pbit (b :: p) i = b.getLsbD (7 - i) := by
  simp [pbit, Nat.div_eq_of_lt h, Nat.mod_eq_of_lt h]

/-- The bits after the first byte are those of the rest (R8). -/
theorem pbit_tail (b : Byte) (p : List Byte) (i : Nat) : pbit (b :: p) (8 + i) = pbit p i := by
  simp [pbit, show (8 + i) / 8 = i / 8 + 1 by omega]

/-- The model's answer at and after L(P), which no rule reads (R28, log entry 11). -/
theorem pbit_beyond {p : List Byte} {i : Nat} (h : bitLength p ≤ i) : pbit p i = false := by
  have : p.length ≤ i / 8 := by simp only [bitLength] at h; omega
  simp [pbit, List.getD_eq_getElem?_getD, List.getElem?_eq_none this]

/-- Stream bits before the end of a first part are those of that part (R8). -/
theorem pbit_append_left {p q : List Byte} {i : Nat} (h : i < bitLength p) : pbit (p ++ q) i = pbit p i := by
  have : i / 8 < p.length := by simp only [bitLength] at h; omega
  simp [pbit, List.getD_eq_getElem?_getD, List.getElem?_append_left this]

/-- Byte lists of one length with the same stream bits are the same. -/
theorem eq_of_pbit_eq {p q : List Byte} (hl : p.length = q.length)
    (h : ∀ i, i < bitLength p → pbit p i = pbit q i) : p = q := by
  induction p generalizing q with
  | nil => cases q with
    | nil => rfl
    | cons _ _ => simp at hl
  | cons a p ih =>
    cases q with
    | nil => simp at hl
    | cons b q =>
      simp only [List.length_cons, Nat.add_right_cancel_iff] at hl
      congr 1
      · apply BitVec.eq_of_getLsbD_eq
        intro i hi
        have key := h (7 - i) (by simp only [bitLength, List.length_cons]; omega)
        rw [pbit_head _ _ (by omega), pbit_head _ _ (by omega)] at key
        simpa [show 7 - (7 - i) = i by omega] using key
      · refine ih hl fun i hi => ?_
        have key := h (8 + i) (by simp only [bitLength, List.length_cons] at hi ⊢; omega)
        rwa [pbit_tail, pbit_tail] at key

/-- A field depends on its own stream bits only (R9). -/
theorem field_congr {p q : List Byte} {a n : Nat} (h : ∀ i, a ≤ i → i < a + n → pbit p i = pbit q i) :
    field p a n = field q a n := by
  simp only [field]
  congr 1
  refine List.map_congr_left fun k hk => ?_
  rw [h (a + k) (by omega) (by have := List.mem_range.mp hk; omega)]

/-- The speech bits depend on their own stream bits only (R75). -/
theorem speechBits_congr {p q : List Byte} {n : Nat} (h : ∀ i, 10 ≤ i → i < 10 + n → pbit p i = pbit q i) :
    speechBits p n = speechBits q n := by
  simp only [speechBits]
  refine List.map_congr_left fun k hk => ?_
  rw [h (10 + k) (by omega) (by have := List.mem_range.mp hk; omega)]

/-! ### Packing -/

/-- A bit appended at the right is bit 0. -/
theorem getLsbD_append_ofBool {w : Nat} (x : BitVec w) (y : Bool) (i : Nat) :
    (x ++ BitVec.ofBool y).getLsbD i = if i = 0 then y else x.getLsbD (i - 1) := by
  rw [BitVec.getLsbD_append]
  rcases i with _ | i <;> simp

/-- Bit 7 - m of a byte made of bits is its bit m (R11). -/
theorem byteOfBits_getLsbD (b : Nat → Bool) {m : Nat} (h : m < 8) : (byteOfBits b).getLsbD (7 - m) = b m := by
  refine (getLsbD_append_ofBool _ _ _).trans ?_
  interval_cases m <;> simp only [getLsbD_append_ofBool] <;> simp

@[simp] theorem speechBits_length (p : List Byte) (n : Nat) : (speechBits p n).length = n := by
  simp [speechBits]

@[simp] theorem pack_length (bits : List Bool) : (pack bits).length = bits.length / 8 := by
  simp [pack]

/-- A packed bit sequence holds its bits at the stream bits of the same number (R11). -/
theorem pbit_pack {bits : List Bool} {i : Nat} (h : i < 8 * (bits.length / 8)) :
    pbit (pack bits) i = bits.getD i false := by
  have hi : i / 8 < bits.length / 8 := by omega
  simp only [pbit, pack, List.getD_eq_getElem?_getD, List.getElem?_map, List.getElem?_range hi, Option.map_some,
    Option.getD_some]
  rw [byteOfBits_getLsbD _ (by omega)]
  simp [show 8 * (i / 8) + i % 8 = i by omega]

/-! ### The codec ROM -/

/-- Every present entry is between 39 and 477 bits (R66, R83). -/
theorem rom_bounds {v : Variant} {ft : BitVec 4} {n : Nat} (h : rom v ft = some n) : 39 ≤ n ∧ n ≤ 477 := by
  obtain ⟨⟨k, hk⟩⟩ := ft
  simp only [Nat.reducePow] at hk
  cases v <;> interval_cases k <;> simp [rom, nbTable, wbTable] at h <;> omega

/-- The codec ROM has an entry exactly where the table of R49 has a row, with the row's bit count (R49, R66). -/
theorem rom_eq_frameRow (v : Variant) (ft : BitVec 4) : rom v ft = (Safety.frameRow v ft).map (·.bits) := by
  revert ft
  cases v <;> decide

/-- The columns of R49's table follow from the frame type and the bit count, as R49 computes them. -/
theorem frameRow_columns {v : Variant} {ft : BitVec 4} {r : Safety.FrameRow} (h : Safety.frameRow v ft = some r) :
    r.pad = padBits r.bits ∧ r.frameBytes = 1 + speechBytes r.bits ∧ r.minPayload = (10 + r.bits + 7) / 8 ∧
      ∀ q, headerByte ft q = r.header ||| q.setWidth 8 <<< 2 := by
  have all : ∀ (v : Variant) (ft : BitVec 4), ((Safety.frameRow v ft).all fun r =>
      r.pad == padBits r.bits && r.frameBytes == 1 + speechBytes r.bits && r.minPayload == (10 + r.bits + 7) / 8 &&
        decide (∀ q, headerByte ft q = r.header ||| q.setWidth 8 <<< 2)) = true := by
    intro v
    cases v <;> decide
  have := all v ft
  simpa only [h, Option.all_some, Bool.and_eq_true, beq_iff_eq, decide_eq_true_eq, and_assoc] using this

/-- A taken part of a payload has the payload's bits (R80). -/
theorem pbit_take {p : List Byte} {k i : Nat} (h : i < 8 * k) : pbit (p.take k) i = pbit p i := by
  have : i / 8 < k := by omega
  simp [pbit, List.getD_eq_getElem?_getD, this]

/-! ### The transcoder -/

/-- From two bytes on, the header is parsed (R71). -/
theorem transcode_of_long {v : Variant} {p : List Byte} (h : 2 ≤ p.length) :
    transcode v p = frameTypeResult v (payloadFrameType p) (payloadQuality p) p := by
  simp only [transcode]
  rw [if_neg (by simp only [bitLength]; omega)]

/-- What an accepted payload looks like (R73, R74, R79). -/
theorem transcode_accepted {v : Variant} {p f : List Byte} (h : transcode v p = .accepted f) :
    ∃ n, rom v (payloadFrameType p) = some n ∧ 10 + n ≤ bitLength p ∧
      f = storageFrame (payloadFrameType p) (payloadQuality p) n p := by
  simp only [transcode, frameTypeResult] at h
  split at h
  · cases h
  · split at h
    · cases h
    · next n hn =>
      split at h
      · cases h
      · next hl => cases h; exact ⟨n, hn, by omega, rfl⟩

/-- A payload with a table entry and enough bits is accepted (R74, R79). -/
theorem transcode_of_enough {v : Variant} {p : List Byte} {n : Nat} (hn : rom v (payloadFrameType p) = some n)
    (hl : 10 + n ≤ bitLength p) :
    transcode v p = .accepted (storageFrame (payloadFrameType p) (payloadQuality p) n p) := by
  simp only [transcode, frameTypeResult, hn]
  rw [if_neg (by omega), if_neg (by omega)]

/-- The length of a storage frame (R49). -/
theorem storageFrame_length (ft : BitVec 4) (q : BitVec 1) (n : Nat) (p : List Byte) :
    (storageFrame ft q n p).length = 1 + (n + 7) / 8 := by
  simp [storageFrame, padBits]
  omega

/-- A frame has at most 61 bytes (R58, R83). -/
theorem accepted_length {v : Variant} {p f : List Byte} (h : transcode v p = .accepted f) : f.length ≤ 61 := by
  obtain ⟨n, hn, -, rfl⟩ := transcode_accepted h
  have := rom_bounds hn
  rw [storageFrame_length]
  omega

/-! ### Response words -/

/-- The response word of status OK is its DATA (R58). -/
theorem responseWord_ok {n : Nat} (h : n < 512) : responseWord .ok n = BitVec.ofNat 16 n := by
  apply BitVec.eq_of_getLsbD_eq
  intro i hi
  refine (BitVec.getLsbD_append (x := Status.ok.code ++ 0#3) (y := BitVec.ofNat 9 n)).trans ?_
  simp only [BitVec.getLsbD_append, BitVec.getLsbD_ofNat, Status.code]
  by_cases h9 : i < 9
  · simp [h9, hi]
  · have : n.testBit i = false := Nat.testBit_lt_two_pow (by
      have : 2 ^ 9 ≤ 2 ^ i := Nat.pow_le_pow_right (by omega) (by omega)
      omega)
    simp [h9, this]

/-- The response bytes of status OK with a length below 256 (R52, R58). -/
theorem wordBytes_responseWord_ok {n : Nat} (h : n < 256) :
    wordBytes (responseWord .ok n) = [0x00, BitVec.ofNat 8 n] := by
  rw [responseWord_ok (by omega)]
  simp only [wordBytes, List.cons.injEq, and_true]
  constructor
  · apply BitVec.eq_of_toNat_eq
    simp
    omega
  · apply BitVec.eq_of_toNat_eq
    simp

end Sys2Proof.Machine
end

