-- ==== Sys2Proof/Laws/PerInstr.lean ====
section
/-! SUPPORT. A fact about every instruction as syntax: how many bytes its encoding has (R62), one lemma per constructor. -/

namespace Sys2Proof.Laws.EncodedLength

open Sys2Proof

/-- The length of an instruction in bytes: a command of one word 2, a command with a payload 4 + LEN (R62), a header word 2. -/
def bytes : Instr → Nat
  | .submit p => 4 + p.length
  | .transcode _ p => 4 + p.length
  | _ => 2

/-- The encoding has that length. -/
def Statement (i : Instr) : Prop :=
  (encode i).length = bytes i

/-- A word is two bytes (R52). -/
theorem wordBytes_length (w : Word) : (wordBytes w).length = 2 := rfl

theorem beginRun (v : BitVec 2) : Statement (.beginRun v) := rfl
theorem submit (p : List Byte) : Statement (.submit p) := by
  simp only [Statement, encode, bytes, List.length_append, wordBytes_length]
theorem lookup (v : BitVec 2) (ft : BitVec 4) : Statement (.lookup v ft) := rfl
theorem transcode (v : BitVec 2) (p : List Byte) : Statement (.transcode v p) := by
  simp only [Statement, encode, bytes, List.length_append, wordBytes_length]
theorem status : Statement .status := rfl
theorem ft0Nb (h : FrameHeader) : Statement (.ft0Nb h) := rfl
theorem ft1Nb (h : FrameHeader) : Statement (.ft1Nb h) := rfl
theorem ft2Nb (h : FrameHeader) : Statement (.ft2Nb h) := rfl
theorem ft3Nb (h : FrameHeader) : Statement (.ft3Nb h) := rfl
theorem ft4Nb (h : FrameHeader) : Statement (.ft4Nb h) := rfl
theorem ft5Nb (h : FrameHeader) : Statement (.ft5Nb h) := rfl
theorem ft6Nb (h : FrameHeader) : Statement (.ft6Nb h) := rfl
theorem ft7Nb (h : FrameHeader) : Statement (.ft7Nb h) := rfl
theorem ft8Nb (h : FrameHeader) : Statement (.ft8Nb h) := rfl
theorem ft9Nb (h : FrameHeader) : Statement (.ft9Nb h) := rfl
theorem ft10Nb (h : FrameHeader) : Statement (.ft10Nb h) := rfl
theorem ft11Nb (h : FrameHeader) : Statement (.ft11Nb h) := rfl
theorem ft12Nb (h : FrameHeader) : Statement (.ft12Nb h) := rfl
theorem ft13Nb (h : FrameHeader) : Statement (.ft13Nb h) := rfl
theorem ft14Nb (h : FrameHeader) : Statement (.ft14Nb h) := rfl
theorem ft15Nb (h : FrameHeader) : Statement (.ft15Nb h) := rfl
theorem ft0Wb (h : FrameHeader) : Statement (.ft0Wb h) := rfl
theorem ft1Wb (h : FrameHeader) : Statement (.ft1Wb h) := rfl
theorem ft2Wb (h : FrameHeader) : Statement (.ft2Wb h) := rfl
theorem ft3Wb (h : FrameHeader) : Statement (.ft3Wb h) := rfl
theorem ft4Wb (h : FrameHeader) : Statement (.ft4Wb h) := rfl
theorem ft5Wb (h : FrameHeader) : Statement (.ft5Wb h) := rfl
theorem ft6Wb (h : FrameHeader) : Statement (.ft6Wb h) := rfl
theorem ft7Wb (h : FrameHeader) : Statement (.ft7Wb h) := rfl
theorem ft8Wb (h : FrameHeader) : Statement (.ft8Wb h) := rfl
theorem ft9Wb (h : FrameHeader) : Statement (.ft9Wb h) := rfl
theorem ft10Wb (h : FrameHeader) : Statement (.ft10Wb h) := rfl
theorem ft11Wb (h : FrameHeader) : Statement (.ft11Wb h) := rfl
theorem ft12Wb (h : FrameHeader) : Statement (.ft12Wb h) := rfl
theorem ft13Wb (h : FrameHeader) : Statement (.ft13Wb h) := rfl
theorem ft14Wb (h : FrameHeader) : Statement (.ft14Wb h) := rfl
theorem ft15Wb (h : FrameHeader) : Statement (.ft15Wb h) := rfl

end Sys2Proof.Laws.EncodedLength
end

