-- ==== Sys2Proof/Tests/Slice0.lean ====
section
/-! SUPPORT. The model's own tests: the well-formedness checks, words written out bit by bit from the spec's encodings, single
steps whose expected values are the vectors of spec/95_test_vectors.md or the tables of the rules, and for every statement with
hypotheses witnesses that meet them. -/

namespace Sys2Proof.Tests

set_option maxRecDepth 16384

open Sys2Proof Sys2Proof.Machine Sys2Proof.Safety

/-! ### Helpers -/

/-- The next state, if the outcome is one. -/
def nextState : Host.Outcome State Fault Refusal → Option State
  | .next t => some t
  | .fault _ => none
  | .refused _ => none

/-- What the vectors show of a step: the response bytes, STAT after, OUT after. -/
def shown (o : Host.Outcome State Fault Refusal) : Option (List Byte × Word × List Byte) :=
  (nextState o).map fun t => (t.responses, statWord t, t.out)

/-- The responses and how many bytes of the stream are left. -/
def answered (o : Host.Outcome State Fault Refusal) : Option (List Byte × Nat) :=
  (nextState o).map fun t => (t.responses, t.input.length)

/-- What a frame-type row answers, in short: the response word, the header byte and the number of response bytes. -/
def rowShown (o : Host.Outcome State Fault Refusal) : Option (List Byte × Nat) :=
  (nextState o).map fun t => (t.responses.take 3, t.responses.length)

/-- After reset, with these command bytes sent and these answers of the sink to come. -/
def fresh (bytes : List Byte) (script : List SinkAnswer) : State :=
  { State.reset with input := bytes, sinkScript := script }

/-- An open run after its BEGIN (V-B1, V-B2), with these command bytes sent and these answers to come. -/
def openRun (v : Variant) (bytes : List Byte) (script : List SinkAnswer) : State :=
  { fresh bytes script with
    phase := .opened, variant := v, lastStatus := .ok, out := magic v, sinkFile := magic v }

/-- A run halted by an invalid variant (V-B3). -/
def haltedRun (bytes : List Byte) (script : List SinkAnswer) : State :=
  { fresh bytes script with phase := .halted, haltCause := .invalidVariant, lastStatus := .invalidVariant }

/-- A payload in the datapath (R24). -/
def loaded (c : Client) (v : Variant) (p : List Byte) (script : List SinkAnswer) : State :=
  { openRun v [] script with datapath := some ⟨c, v, p⟩ }

/-- A header with CMR, reserved bit, Q and first speech bits all zero. -/
def plain : FrameHeader := ⟨0, 0, 0, 0⟩

/-! ### Payloads and frames of spec/95_test_vectors.md -/

def payloadT1 : List Byte := [0xF2, 0x7F, 0xFF, 0xFF, 0xFF, 0xFF, 0xFF, 0xFF, 0xFF, 0xFF, 0xFF, 0xFF, 0xFF, 0xFF,
    0xFF, 0xFF, 0xFF, 0xFF, 0xFF, 0xFC]
def payloadT3 : List Byte := [0x04, 0xAA, 0xAA, 0xAA, 0xAA, 0xAA, 0x80]
def payloadT4 : List Byte := [0x00, 0x7F, 0xFF, 0xFF, 0xFF, 0xFF, 0xFF, 0xFF, 0xFF, 0xFF, 0xFF, 0xFF, 0xFF, 0xFF,
    0xFF]
def payloadT5a : List Byte := [0x00, 0x7F, 0xFF, 0xFF, 0xFF, 0xFF, 0xFF, 0xFF, 0xFF, 0xFF, 0xFF, 0xFF, 0xFF, 0x80]
def payloadT5b : List Byte := [0x00, 0x7F, 0xFF, 0xFF, 0xFF, 0xFF, 0xFF, 0xFF, 0xFF, 0xFF, 0xFF, 0xFF, 0xFF]
def payloadT6 : List Byte := [0x04, 0x80]
def payloadT9 : List Byte := [0x00, 0x00]
def payloadT10a : List Byte := [0x04, 0x00, 0x40, 0x80, 0xC1, 0x01, 0x00]
def payloadT10b : List Byte := [0xAC, 0x00, 0x40, 0x80, 0xC1, 0x01, 0x00]
def payloadT14 : List Byte := [0x04, 0x3F, 0xFF, 0xFF, 0xFF, 0xFF, 0x80]
def payloadT13 : List Byte := [0x04, 0xEA, 0xAA, 0xAA, 0xAA, 0xAA, 0x80]
def payloadT17 : List Byte := [0x38, 0x00, 0x40, 0x80, 0xC1, 0x01, 0x41, 0x81, 0xC2, 0x02, 0x42, 0x82, 0xC3, 0x03,
    0x43, 0x83, 0xC4, 0x07, 0xFF, 0xFF]
def payloadT11 : List Byte := [0x04, 0x40, 0x40, 0x80, 0xC1, 0x01, 0x41, 0x81, 0xC2, 0x02, 0x42, 0x82, 0xC3, 0x03,
    0x43, 0x83, 0xC4, 0x04, 0x44, 0x84, 0xC5, 0x05, 0x45, 0x85, 0xC6, 0x06, 0x46, 0x86, 0xC7, 0x07, 0x47, 0x87, 0xC8,
    0x08, 0x48, 0x88, 0xC9, 0x09, 0x49, 0x89, 0xCA, 0x0A, 0x4A, 0x8A, 0xCB, 0x0B, 0x4B, 0x8B, 0xCC, 0x0C, 0x4C, 0x8C,
    0xCD, 0x0D, 0x4D, 0x8D, 0xCE, 0x0E, 0x4E, 0x8E, 0xCE]
def payloadT12 : List Byte := [0x00, 0xBF, 0xFF, 0xFF, 0xFF, 0xFF, 0xFF, 0xFF, 0xFF, 0xFF, 0xFF, 0xFF, 0xFF, 0xFF,
    0xFF, 0xFF, 0xFF, 0xFF, 0xFF, 0xFF, 0xFF, 0xFF, 0xFF, 0xE0]
def payloadT16a : List Byte := [0x03, 0x80, 0x40, 0x80, 0xC1, 0x01, 0x41, 0x81, 0xC2, 0x02, 0x42, 0x82, 0xC3, 0x03,
    0x43, 0x83, 0xC4, 0x04, 0x44, 0x84, 0xC5, 0x05, 0x45, 0x85, 0xC6, 0x06, 0x46, 0x86, 0xC7, 0x07, 0x47, 0x84]
def payloadT18 : List Byte := [0x02, 0xBF, 0xFF, 0xFF, 0xFF, 0xFF, 0xFF, 0xFF, 0xFF, 0xFF, 0xFF, 0xFF, 0xFF, 0xFF,
    0xFF, 0xFF, 0xFF, 0xFF, 0xFF, 0xFF, 0xFF, 0x80]

def frameT1 : List Byte := [0x24, 0xFF, 0xFF, 0xFF, 0xFF, 0xFF, 0xFF, 0xFF, 0xFF, 0xFF, 0xFF, 0xFF, 0xFF, 0xFF, 0xFF,
    0xFF, 0xFF, 0xFF, 0xFF, 0xF0]
def frameT3 : List Byte := [0x48, 0xAA, 0xAA, 0xAA, 0xAA, 0xAA]
def frameT4 : List Byte := [0x04, 0xFF, 0xFF, 0xFF, 0xFF, 0xFF, 0xFF, 0xFF, 0xFF, 0xFF, 0xFF, 0xFF, 0xFE]
def frameT10b : List Byte := [0x40, 0x01, 0x02, 0x03, 0x04, 0x04]
def frameT14 : List Byte := [0x40, 0xFF, 0xFF, 0xFF, 0xFF, 0xFE]
def frameT13 : List Byte := [0x4C, 0xAA, 0xAA, 0xAA, 0xAA, 0xAA]
def frameT17 : List Byte := [0x00, 0x01, 0x02, 0x03, 0x04, 0x05, 0x06, 0x07, 0x08, 0x09, 0x0A, 0x0B, 0x0C, 0x0D, 0x0E,
    0x0F, 0x10, 0x10]
def frameT11 : List Byte := [0x44, 0x01, 0x02, 0x03, 0x04, 0x05, 0x06, 0x07, 0x08, 0x09, 0x0A, 0x0B, 0x0C, 0x0D, 0x0E,
    0x0F, 0x10, 0x11, 0x12, 0x13, 0x14, 0x15, 0x16, 0x17, 0x18, 0x19, 0x1A, 0x1B, 0x1C, 0x1D, 0x1E, 0x1F, 0x20, 0x21,
    0x22, 0x23, 0x24, 0x25, 0x26, 0x27, 0x28, 0x29, 0x2A, 0x2B, 0x2C, 0x2D, 0x2E, 0x2F, 0x30, 0x31, 0x32, 0x33, 0x34,
    0x35, 0x36, 0x37, 0x38, 0x39, 0x3A, 0x3B, 0x38]
def frameT12 : List Byte := [0x08, 0xFF, 0xFF, 0xFF, 0xFF, 0xFF, 0xFF, 0xFF, 0xFF, 0xFF, 0xFF, 0xFF, 0xFF, 0xFF, 0xFF,
    0xFF, 0xFF, 0xFF, 0xFF, 0xFF, 0xFF, 0xFF, 0xFF, 0x80]
def frameT16a : List Byte := [0x38, 0x01, 0x02, 0x03, 0x04, 0x05, 0x06, 0x07, 0x08, 0x09, 0x0A, 0x0B, 0x0C, 0x0D,
    0x0E, 0x0F, 0x10, 0x11, 0x12, 0x13, 0x14, 0x15, 0x16, 0x17, 0x18, 0x19, 0x1A, 0x1B, 0x1C, 0x1D, 0x1E, 0x10]
def frameT18 : List Byte := [0x28, 0xFF, 0xFF, 0xFF, 0xFF, 0xFF, 0xFF, 0xFF, 0xFF, 0xFF, 0xFF, 0xFF, 0xFF, 0xFF, 0xFF,
    0xFF, 0xFF, 0xFF, 0xFF, 0xFF, 0xFE]

/-! ### Well-formedness: the one check, on each constructor that has it -/

theorem test_submit_of_65536_bytes_is_ill_formed : (Instr.submit (List.replicate 65536 0)).wellFormed = false := by
  simp only [Instr.wellFormed, payloadFits, List.length_replicate]
  decide

theorem test_transcode_of_65536_bytes_is_ill_formed :
    (Instr.transcode 0 (List.replicate 65536 0)).wellFormed = false := by
  simp only [Instr.wellFormed, payloadFits, List.length_replicate]
  decide

/-! ### Decoding: every constructor, by a word written out from its encoding -/

/-- R53, R54: OP, V, RSV, FTQ. -/
theorem test_command_words_decode :
    decode (wordBytes 0b0001_01_000000_0000#16) = .command (.beginRun 0b01#2) [] ∧
    decode (wordBytes 0b0010_00_000000_0000#16 ++ [0x00, 0x01, 0xAB]) = .command (.submit [0xAB]) [] ∧
    decode (wordBytes 0b0011_10_000000_1001#16) = .command (.lookup 0b10#2 9#4) [] ∧
    decode (wordBytes 0b0100_01_000000_0000#16 ++ [0x00, 0x00, 0x50]) = .command (.transcode 0b01#2 []) [0x50] ∧
    decode (wordBytes 0b0101_00_000000_0000#16) = .command .status [] := by
  decide

/-- R55: one wrong field each, OP 0x0 and OP 0x6 (V-B10 to V-B12, V-L3, V-T20, V-S10, V-ST3, V-ST4, V-I1, V-I2). -/
theorem test_illegal_words_are_rejected :
    decode [0x10, 0x01] = .illegal 0x1001#16 [] ∧ decode [0x10, 0x10] = .illegal 0x1010#16 [] ∧
    decode [0x12, 0x00] = .illegal 0x1200#16 [] ∧ decode [0x30, 0x10] = .illegal 0x3010#16 [] ∧
    decode [0x40, 0x01, 0x00, 0x02, 0x04, 0x80, 0x50, 0x00] = .illegal 0x4001#16 [0x50, 0x00] ∧
    decode [0x24, 0x00, 0x00, 0x02, 0x04, 0x80] = .illegal 0x2400#16 [] ∧
    decode [0x50, 0x01] = .illegal 0x5001#16 [] ∧ decode [0x54, 0x00] = .illegal 0x5400#16 [] ∧
    decode [0x00, 0x00] = .illegal 0x0000#16 [] ∧ decode [0x60, 0x00] = .illegal 0x6000#16 [] := by
  decide

/-- R45: CMR, reserved, FT, Q and speech bits, for each frame type under NarrowBand. -/
theorem test_nb_header_words_decode :
    decodeHeader .nb (wordBytes 0b0000_0_0000_0_100000#16) = some (.ft0Nb ⟨0, 0, 0, 32⟩) ∧
    decodeHeader .nb (wordBytes 0b1010_1_0001_1_000001#16) = some (.ft1Nb ⟨10, 1, 1, 1⟩) ∧
    decodeHeader .nb (wordBytes 0b0000_0_0010_0_100000#16) = some (.ft2Nb ⟨0, 0, 0, 32⟩) ∧
    decodeHeader .nb (wordBytes 0b1010_0_0011_1_000001#16) = some (.ft3Nb ⟨10, 0, 1, 1⟩) ∧
    decodeHeader .nb (wordBytes 0b0000_1_0100_0_100000#16) = some (.ft4Nb ⟨0, 1, 0, 32⟩) ∧
    decodeHeader .nb (wordBytes 0b1010_0_0101_1_000001#16) = some (.ft5Nb ⟨10, 0, 1, 1⟩) ∧
    decodeHeader .nb (wordBytes 0b0000_0_0110_0_100000#16) = some (.ft6Nb ⟨0, 0, 0, 32⟩) ∧
    decodeHeader .nb (wordBytes 0b1010_1_0111_1_000001#16) = some (.ft7Nb ⟨10, 1, 1, 1⟩) ∧
    decodeHeader .nb (wordBytes 0b0000_0_1000_0_100000#16) = some (.ft8Nb ⟨0, 0, 0, 32⟩) ∧
    decodeHeader .nb (wordBytes 0b1010_0_1001_1_000001#16) = some (.ft9Nb ⟨10, 0, 1, 1⟩) ∧
    decodeHeader .nb (wordBytes 0b0000_1_1010_0_100000#16) = some (.ft10Nb ⟨0, 1, 0, 32⟩) ∧
    decodeHeader .nb (wordBytes 0b1010_0_1011_1_000001#16) = some (.ft11Nb ⟨10, 0, 1, 1⟩) ∧
    decodeHeader .nb (wordBytes 0b0000_0_1100_0_100000#16) = some (.ft12Nb ⟨0, 0, 0, 32⟩) ∧
    decodeHeader .nb (wordBytes 0b1010_1_1101_1_000001#16) = some (.ft13Nb ⟨10, 1, 1, 1⟩) ∧
    decodeHeader .nb (wordBytes 0b0000_0_1110_0_100000#16) = some (.ft14Nb ⟨0, 0, 0, 32⟩) ∧
    decodeHeader .nb (wordBytes 0b1010_0_1111_1_000001#16) = some (.ft15Nb ⟨10, 0, 1, 1⟩) := by
  decide

/-- R45: CMR, reserved, FT, Q and speech bits, for each frame type under WideBand. -/
theorem test_wb_header_words_decode :
    decodeHeader .wb (wordBytes 0b0000_0_0000_0_100000#16) = some (.ft0Wb ⟨0, 0, 0, 32⟩) ∧
    decodeHeader .wb (wordBytes 0b1010_1_0001_1_000001#16) = some (.ft1Wb ⟨10, 1, 1, 1⟩) ∧
    decodeHeader .wb (wordBytes 0b0000_0_0010_0_100000#16) = some (.ft2Wb ⟨0, 0, 0, 32⟩) ∧
    decodeHeader .wb (wordBytes 0b1010_0_0011_1_000001#16) = some (.ft3Wb ⟨10, 0, 1, 1⟩) ∧
    decodeHeader .wb (wordBytes 0b0000_1_0100_0_100000#16) = some (.ft4Wb ⟨0, 1, 0, 32⟩) ∧
    decodeHeader .wb (wordBytes 0b1010_0_0101_1_000001#16) = some (.ft5Wb ⟨10, 0, 1, 1⟩) ∧
    decodeHeader .wb (wordBytes 0b0000_0_0110_0_100000#16) = some (.ft6Wb ⟨0, 0, 0, 32⟩) ∧
    decodeHeader .wb (wordBytes 0b1010_1_0111_1_000001#16) = some (.ft7Wb ⟨10, 1, 1, 1⟩) ∧
    decodeHeader .wb (wordBytes 0b0000_0_1000_0_100000#16) = some (.ft8Wb ⟨0, 0, 0, 32⟩) ∧
    decodeHeader .wb (wordBytes 0b1010_0_1001_1_000001#16) = some (.ft9Wb ⟨10, 0, 1, 1⟩) ∧
    decodeHeader .wb (wordBytes 0b0000_1_1010_0_100000#16) = some (.ft10Wb ⟨0, 1, 0, 32⟩) ∧
    decodeHeader .wb (wordBytes 0b1010_0_1011_1_000001#16) = some (.ft11Wb ⟨10, 0, 1, 1⟩) ∧
    decodeHeader .wb (wordBytes 0b0000_0_1100_0_100000#16) = some (.ft12Wb ⟨0, 0, 0, 32⟩) ∧
    decodeHeader .wb (wordBytes 0b1010_1_1101_1_000001#16) = some (.ft13Wb ⟨10, 1, 1, 1⟩) ∧
    decodeHeader .wb (wordBytes 0b0000_0_1110_0_100000#16) = some (.ft14Wb ⟨0, 0, 0, 32⟩) ∧
    decodeHeader .wb (wordBytes 0b1010_0_1111_1_000001#16) = some (.ft15Wb ⟨10, 0, 1, 1⟩) := by
  decide

/-- V-H: the fields of the header, read as stream fields (R43, R72). -/
theorem test_header_fields :
    (payloadCmr [0xF2, 0x7F] = 15 ∧ payloadReserved [0xF2, 0x7F] = 0 ∧ payloadFrameType [0xF2, 0x7F] = 4 ∧
      payloadQuality [0xF2, 0x7F] = 1) ∧
    (payloadCmr [0x38, 0x00] = 3 ∧ payloadReserved [0x38, 0x00] = 1 ∧ payloadFrameType [0x38, 0x00] = 0 ∧
      payloadQuality [0x38, 0x00] = 0) ∧
    (payloadFrameType [0x07, 0xC0] = 15 ∧ payloadQuality [0x07, 0xC0] = 1) ∧
    (payloadFrameType [0x04, 0xAA] = 9 ∧ payloadQuality [0x04, 0xAA] = 0) := by
  decide

/-- The opcode table's numbering of bits: a command word, a SUBMIT with LEN 2 in the second word, a header word. -/
theorem test_table_words_decode :
    decodeTableWord 16 0x1400 = some (.beginRun 0b01#2) ∧
    decodeTableWord 32 (0x2000 + 2 * 65536) = some (.submit [0x00, 0x00]) ∧
    decodeTableWord 16 0x4000 = some (.transcode 0b00#2 []) ∧
    decodeTableWord 16 0x0240 = some (.ft4Nb ⟨0, 0, 1, 0⟩) := by
  decide

/-- A placed header word is what the next step runs (log entry 8): NB FT 9 is skipped (V-T6). -/
theorem test_placed_header_word_runs :
    shown (step (State.reset.withFetchWord 16 0x0480)) = some ([0x10, 0x00], 0x0001#16, []) := by
  decide

/-- A placed command is what the next step runs: LOOKUP wb, 8 (V-L). -/
theorem test_placed_command_runs :
    shown (step (State.reset.withFetchWord 16 0x3408)) = some ([0x01, 0xDD], 0x0000#16, []) := by
  decide

/-! ### BEGIN -/

/-- V-B2. -/
theorem test_begin_wb : shown (step (fresh [0x14, 0x00] [.ok])) =
    some ([0x00, 0x09], 0x0050#16, [0x23, 0x21, 0x41, 0x4D, 0x52, 0x2D, 0x57, 0x42, 0x0A]) := by
  decide

/-- V-B6: the sink fails after 4 bytes. -/
theorem test_begin_wb_fail_4 : shown (step (fresh [0x14, 0x00] [.fail 4])) =
    some ([0x40, 0x00], 0x0464#16, [0x23, 0x21, 0x41, 0x4D]) := by
  decide

/-! ### SUBMIT -/

/-- V-S7: the sink fails after 2 bytes of the frame. -/
theorem test_submit_fail_2 :
    shown (step (openRun .nb ([0x20, 0x00, 0x00, 0x07] ++ payloadT14) [.fail 2])) =
      some ([0x40, 0x00], 0x0424#16, magic .nb ++ [0x40, 0xFF]) := by
  decide

/-- P3 step 7: V-T17 in a WB run, its frame appended after what OUT held. -/
theorem test_submit_appends_frame :
    shown (step (openRun .wb ([0x20, 0x00, 0x00, 0x14] ++ payloadT17) [.ok])) =
      some ([0x00, 0x12], 0x0050#16, magic .wb ++ frameT17) := by
  decide

/-! ### LOOKUP -/

/-- V-L: WB FT 9 is present, in a halted run (P4 step 4 for the phase). -/
theorem test_lookup_wb_9_halted : shown (step (haltedRun [0x34, 0x09] [])) = some ([0x00, 0x28], 0x0320#16, []) := by
  decide

/-- V-L2: V is checked before FT; not fatal. -/
theorem test_lookup_invalid_variant : shown (step (fresh [0x3C, 0x0F] [])) = some ([0x30, 0x00], 0x0003#16, []) := by
  decide

/-! ### TRANSCODE -/

/-- V-T11: the largest frame. -/
theorem test_transcode_largest :
    shown (step (fresh ([0x44, 0x00, 0x00, 0x3D] ++ payloadT11) [])) =
      some ([0x00, 0x3D] ++ frameT11, 0x0000#16, []) := by
  decide

/-- V-T19: an invalid variant, the payload consumed. -/
theorem test_transcode_invalid_variant :
    answered (step (fresh ([0x48, 0x00, 0x00, 0x07] ++ payloadT14 ++ [0x50, 0x00]) [])) = some ([0x30, 0x00], 2) := by
  decide

/-! ### STATUS -/

/-- V-ST1. -/
theorem test_status_after_reset : shown (step (fresh [0x50, 0x00] [])) = some ([0x00, 0x0F], 0x000F#16, []) := by
  decide

/-- V-ST3: an illegal STATUS word writes LAST_STATUS. -/
theorem test_illegal_status_word : shown (step (openRun .nb [0x50, 0x01] [])) =
    some ([0x70, 0x00], 0x0017#16, magic .nb) := by
  decide

/-! ### Illegal commands and waiting -/

/-- V-I4: OP 0x4 takes its LEN even when illegal. -/
theorem test_illegal_transcode_takes_len : answered (step (fresh [0x40, 0x01, 0x00, 0x00, 0x50] [])) =
    some ([0x70, 0x00], 1) := by
  decide

/-- V-S10: an illegal SUBMIT with its payload in an open WB run. -/
theorem test_illegal_submit_takes_payload :
    shown (step (openRun .wb [0x24, 0x00, 0x00, 0x02, 0x04, 0x80] [])) = some ([0x70, 0x00], 0x0057#16, magic .wb) := by
  decide

/-! ### The transcoder on the remaining vectors -/

/-- V-T1, V-T16a, V-T16b. -/
theorem test_transcode_nb_ft4_ft7 : transcode .nb payloadT1 = .accepted frameT1 ∧
    transcode .nb payloadT16a = .accepted frameT16a ∧ transcode .nb (payloadT16a.take 31) = .failed := by
  decide

/-- V-T4, V-T5a, V-T5b: a pad bit that must be cleared, the shortest payload, one byte less. -/
theorem test_transcode_nb_ft0 : transcode .nb payloadT4 = .accepted frameT4 ∧
    transcode .nb payloadT5a = .accepted frameT4 ∧ transcode .nb payloadT5b = .failed := by
  decide

/-- V-T10a, V-T10b: CMR and the reserved bit are ignored; V-T14. -/
theorem test_transcode_nb_ft8 : transcode .nb payloadT10a = .accepted frameT10b ∧
    transcode .nb payloadT10b = .accepted frameT10b ∧ transcode .nb payloadT14 = .accepted frameT14 := by
  decide

/-- V-T18, V-T18b: the minimum is 22 bytes, though the frame has 21. -/
theorem test_transcode_nb_ft5 : transcode .nb payloadT18 = .accepted frameT18 ∧
    transcode .nb (payloadT18.take 21) = .failed := by
  decide

/-- V-T3, V-T13b, V-T12, V-T15, V-T7b. -/
theorem test_transcode_wb : transcode .wb payloadT3 = .accepted frameT3 ∧
    transcode .wb payloadT13 = .accepted frameT13 ∧ transcode .wb payloadT12 = .accepted frameT12 ∧
    transcode .wb payloadT14 = .failed ∧ transcode .wb [0x07, 0xC0] = .skipped := by
  decide

/-- V-T13a, V-T6, V-T7a, V-T8a, V-T8b, V-T9. -/
theorem test_transcode_nb_dropped : transcode .nb payloadT13 = .skipped ∧ transcode .nb payloadT6 = .skipped ∧
    transcode .nb [0x07, 0xC0] = .skipped ∧ transcode .nb [] = .failed ∧ transcode .nb [0x00] = .failed ∧
    transcode .nb payloadT9 = .failed := by
  decide

/-! ### The frame-type rows: header byte and frame length of R49, at the shortest payload; the skipped rows of R73 -/

theorem test_ft0_nb : rowShown (exec (.ft0Nb plain) (loaded .transcode .nb (List.replicate 14 0) [])) =
    some ([0x00, 13, 0x00], 15) := by decide
theorem test_ft1_nb : rowShown (exec (.ft1Nb plain) (loaded .transcode .nb (List.replicate 15 0) [])) =
    some ([0x00, 14, 0x08], 16) := by decide
theorem test_ft2_nb : rowShown (exec (.ft2Nb plain) (loaded .transcode .nb (List.replicate 16 0) [])) =
    some ([0x00, 16, 0x10], 18) := by decide
theorem test_ft3_nb : rowShown (exec (.ft3Nb plain) (loaded .transcode .nb (List.replicate 18 0) [])) =
    some ([0x00, 18, 0x18], 20) := by decide
theorem test_ft4_nb : rowShown (exec (.ft4Nb plain) (loaded .transcode .nb (List.replicate 20 0) [])) =
    some ([0x00, 20, 0x20], 22) := by decide
theorem test_ft5_nb : rowShown (exec (.ft5Nb plain) (loaded .transcode .nb (List.replicate 22 0) [])) =
    some ([0x00, 21, 0x28], 23) := by decide
theorem test_ft6_nb : rowShown (exec (.ft6Nb plain) (loaded .transcode .nb (List.replicate 27 0) [])) =
    some ([0x00, 27, 0x30], 29) := by decide
theorem test_ft7_nb : rowShown (exec (.ft7Nb plain) (loaded .transcode .nb (List.replicate 32 0) [])) =
    some ([0x00, 32, 0x38], 34) := by decide
theorem test_ft8_nb : rowShown (exec (.ft8Nb plain) (loaded .transcode .nb (List.replicate 7 0) [])) =
    some ([0x00, 6, 0x40], 8) := by decide
theorem test_ft9_nb : rowShown (exec (.ft9Nb plain) (loaded .transcode .nb [0x07, 0xC0] [])) =
    some ([0x10, 0x00], 2) := by decide
theorem test_ft10_nb : rowShown (exec (.ft10Nb plain) (loaded .transcode .nb [0x07, 0xC0] [])) =
    some ([0x10, 0x00], 2) := by decide
theorem test_ft11_nb : rowShown (exec (.ft11Nb plain) (loaded .transcode .nb [0x07, 0xC0] [])) =
    some ([0x10, 0x00], 2) := by decide
theorem test_ft12_nb : rowShown (exec (.ft12Nb plain) (loaded .transcode .nb [0x07, 0xC0] [])) =
    some ([0x10, 0x00], 2) := by decide
theorem test_ft13_nb : rowShown (exec (.ft13Nb plain) (loaded .transcode .nb [0x07, 0xC0] [])) =
    some ([0x10, 0x00], 2) := by decide
theorem test_ft14_nb : rowShown (exec (.ft14Nb plain) (loaded .transcode .nb [0x07, 0xC0] [])) =
    some ([0x10, 0x00], 2) := by decide
theorem test_ft15_nb : rowShown (exec (.ft15Nb plain) (loaded .transcode .nb [0x07, 0xC0] [])) =
    some ([0x10, 0x00], 2) := by decide
theorem test_ft0_wb : rowShown (exec (.ft0Wb plain) (loaded .transcode .wb (List.replicate 18 0) [])) =
    some ([0x00, 18, 0x00], 20) := by decide
theorem test_ft1_wb : rowShown (exec (.ft1Wb plain) (loaded .transcode .wb (List.replicate 24 0) [])) =
    some ([0x00, 24, 0x08], 26) := by decide
theorem test_ft2_wb : rowShown (exec (.ft2Wb plain) (loaded .transcode .wb (List.replicate 33 0) [])) =
    some ([0x00, 33, 0x10], 35) := by decide
theorem test_ft3_wb : rowShown (exec (.ft3Wb plain) (loaded .transcode .wb (List.replicate 37 0) [])) =
    some ([0x00, 37, 0x18], 39) := by decide
theorem test_ft4_wb : rowShown (exec (.ft4Wb plain) (loaded .transcode .wb (List.replicate 41 0) [])) =
    some ([0x00, 41, 0x20], 43) := by decide
theorem test_ft5_wb : rowShown (exec (.ft5Wb plain) (loaded .transcode .wb (List.replicate 47 0) [])) =
    some ([0x00, 47, 0x28], 49) := by decide
theorem test_ft6_wb : rowShown (exec (.ft6Wb plain) (loaded .transcode .wb (List.replicate 51 0) [])) =
    some ([0x00, 51, 0x30], 53) := by decide
theorem test_ft7_wb : rowShown (exec (.ft7Wb plain) (loaded .transcode .wb (List.replicate 59 0) [])) =
    some ([0x00, 59, 0x38], 61) := by decide
theorem test_ft8_wb : rowShown (exec (.ft8Wb plain) (loaded .transcode .wb (List.replicate 61 0) [])) =
    some ([0x00, 61, 0x40], 63) := by decide
theorem test_ft9_wb : rowShown (exec (.ft9Wb plain) (loaded .transcode .wb (List.replicate 7 0) [])) =
    some ([0x00, 6, 0x48], 8) := by decide
theorem test_ft10_wb : rowShown (exec (.ft10Wb plain) (loaded .transcode .wb [0x07, 0xC0] [])) =
    some ([0x10, 0x00], 2) := by decide
theorem test_ft11_wb : rowShown (exec (.ft11Wb plain) (loaded .transcode .wb [0x07, 0xC0] [])) =
    some ([0x10, 0x00], 2) := by decide
theorem test_ft12_wb : rowShown (exec (.ft12Wb plain) (loaded .transcode .wb [0x07, 0xC0] [])) =
    some ([0x10, 0x00], 2) := by decide
theorem test_ft13_wb : rowShown (exec (.ft13Wb plain) (loaded .transcode .wb [0x07, 0xC0] [])) =
    some ([0x10, 0x00], 2) := by decide
theorem test_ft14_wb : rowShown (exec (.ft14Wb plain) (loaded .transcode .wb [0x07, 0xC0] [])) =
    some ([0x10, 0x00], 2) := by decide
theorem test_ft15_wb : rowShown (exec (.ft15Wb plain) (loaded .transcode .wb [0x07, 0xC0] [])) =
    some ([0x10, 0x00], 2) := by decide

/-! ### The textual syntax (R63), on lines of the spec's programs -/

theorem test_text_of_commands :
    assembleLine "BEGIN wb".toList = some [0x14, 0x00] ∧ assembleLine "BEGIN v=3".toList = some [0x1C, 0x00] ∧
    assembleLine "SUBMIT 04:80".toList = some [0x20, 0x00, 0x00, 0x02, 0x04, 0x80] ∧
    assembleLine "SUBMIT -".toList = some [0x20, 0x00, 0x00, 0x00] ∧
    assembleLine "LOOKUP wb, 8".toList = some [0x34, 0x08] ∧ assembleLine "LOOKUP v=3, 15".toList = some [0x3C, 0x0F] := by
  decide

theorem test_text_of_other_commands :
    assembleLine "TRANSCODE nb, 04:3f:ff:ff:ff:ff:80".toList = some ([0x40, 0x00, 0x00, 0x07] ++ payloadT14) ∧
    assembleLine "status # read it".toList = some [0x50, 0x00] ∧ assembleLine ".word 0x2400".toList = some [0x24, 0x00] ∧
    assembleLine "LOOKUP nb, 16".toList = none := by
  decide

/-! ### Witnesses: for every statement with hypotheses, a state and operands that meet them, clause by clause -/

/-- A run cut in the middle of a SUBMIT, with a next run to come (R113). -/
def cutRun : State := { openRun .wb [0x20, 0x00, 0x00, 0x02, 0x04] [] with laterRuns := [[0x10, 0x00]] }

/-- ResetGivesTheResetValues. -/
theorem witness_reset_comes : ResetComes cutRun := ⟨rfl, by decide, by decide⟩

/-- ResetKeepsTheSink: the same state, its sink holding the magic header. -/
theorem witness_reset_keeps_the_sink : cutRun.datapath = none ∧ decode cutRun.input = .incomplete ∧
    cutRun.laterRuns = [0x10, 0x00] :: [] ∧ cutRun.sinkFile = magic .wb := by decide

/-- WaitingKeepsAllState: one byte of a command word. -/
theorem witness_waiting : (fresh [0x10] []).datapath = none ∧ decode (fresh [0x10] []).input = .incomplete ∧
    (fresh [0x10] []).laterRuns = [] := by decide

/-- StepRunsTheDecodedCommand. -/
theorem witness_step_command : (fresh [0x50, 0x00, 0xFF] []).datapath = none ∧
    decode (fresh [0x50, 0x00, 0xFF] []).input = .command .status [0xFF] := by decide

/-- StepRunsTheDecodedFrameType. -/
theorem witness_step_frame_type : (loaded .submit .nb payloadT6 []).datapath = some ⟨.submit, .nb, payloadT6⟩ ∧
    decodeHeader .nb payloadT6 = some (.ft9Nb plain) := by decide

/-- IllegalWordsAreRejectedWithoutEffect, legal words: BEGIN v=3 with no payload, TRANSCODE v=3 with LEN 0 and 2. -/
theorem witness_legal_words : TableLegal 0x1C00#16 ∧ ¬ HasPayload 0x1C00#16 ∧ TableLegal 0x4C00#16 ∧
    HasPayload 0x4C00#16 ∧ ([] : List Byte).length = (0#16).toNat ∧ payloadT6.length = (2#16).toNat := by
  unfold TableLegal HasPayload
  decide

/-- IllegalWordsAreRejectedWithoutEffect, illegal words: OP 0xF and 0x0; OP 0x4 with FTQ 1 and LEN 0 (V-I4). -/
theorem witness_illegal_words : ¬ TableLegal 0xFFFF#16 ∧ ¬ HasPayload 0xFFFF#16 ∧ ¬ TableLegal 0x0000#16 ∧
    ¬ HasPayload 0x0000#16 ∧ ¬ TableLegal 0x4001#16 ∧ HasPayload 0x4001#16 ∧
    (fresh [0x40, 0x01, 0x00, 0x00, 0x50] []).input = wordBytes 0x4001#16 ++ wordBytes 0#16 ++ [] ++ [0x50] ∧
    (fresh [0xFF, 0xFF, 0x50] []).input = wordBytes 0xFFFF#16 ++ [0x50] := by
  unfold TableLegal HasPayload
  decide

/-- PayloadIsAlwaysConsumed: an illegal SUBMIT word (V-S10), and a one-word command. -/
theorem witness_payload_consumed : HasPayload 0x2400#16 ∧ payloadT6.length = (2#16).toNat ∧
    (openRun .wb [0x24, 0x00, 0x00, 0x02, 0x04, 0x80, 0x50] []).input =
      wordBytes 0x2400#16 ++ wordBytes 2#16 ++ payloadT6 ++ [0x50] ∧
    ¬ HasPayload 0x5000#16 ∧ (fresh [0x50, 0x00] []).input = wordBytes 0x5000#16 ++ [] := by
  unfold HasPayload
  decide

/-- DecodeOfEncodedCommand: the longest payload LEN can announce. -/
theorem witness_longest_payload : (Instr.submit (List.replicate 65535 0)).isCommand = true ∧
    (Instr.submit (List.replicate 65535 0)).wellFormed = true := by
  simp only [Instr.isCommand, Instr.wellFormed, payloadFits, List.length_replicate]
  decide

/-- EncodeOfDecodedCommand. -/
theorem witness_decoded_command : decode [0x20, 0x00, 0x00, 0x00, 0x50] = .command (.submit []) [0x50] := by decide

/-- FrameTypeRowsRoundTrip, both directions. -/
theorem witness_frame_type_rows : (Instr.ft15Wb plain).isCommand = false ∧
    decodeHeader .wb (0x04 :: 0x80 :: [0xAA]) = some (.ft9Wb plain) := by decide

/-- ResponseWordLayout: the ends of DATA's range. -/
theorem witness_response_data : (0 : Nat) ≤ 477 ∧ (477 : Nat) ≤ 477 := by decide

/-- TranscoderOrderOfChecks: each clause at its boundary (V-T8b, V-T6, V-T9, V-T5b, V-T5a). -/
theorem witness_order_of_checks : ([0x00] : List Byte).length < 2 ∧
    (2 ≤ payloadT6.length ∧ rom .nb (payloadFrameType payloadT6) = none) ∧
    (payloadT9.length = 2 ∧ rom .nb (payloadFrameType payloadT9) = some 95) ∧
    (rom .nb (payloadFrameType payloadT5b) = some 95 ∧ payloadT5b.length + 1 = (10 + 95 + 7) / 8) ∧
    (rom .nb (payloadFrameType payloadT5a) = some 95 ∧ payloadT5a.length = (10 + 95 + 7) / 8) := by decide

/-- AcceptedFrameIsAStorageFrame and SpeechBitsAreCopiedVerbatim: V-T4, whose pad bit is a one bit of the payload. -/
theorem witness_accepted : transcode .nb payloadT4 = .accepted frameT4 ∧
    rom .nb (payloadFrameType payloadT4) = some 95 := by decide

/-- ByteShifterEqualsBitPacking: the last bit of the last byte of 40 speech bits. -/
theorem witness_byte_shifter : (7 < 8) ∧ 8 * 4 + 7 < 40 := by decide

/-- CmrAndReservedBitAreIgnored: V-T10a and V-T10b. -/
theorem witness_cmr_ignored : payloadT10a ≠ payloadT10b ∧ payloadT10a.length = payloadT10b.length ∧
    ∀ i, 5 ≤ i → pbit payloadT10a i = pbit payloadT10b i := by
  refine ⟨by decide, by decide, fun i hi => ?_⟩
  by_cases h : i < 56
  · exact (by decide : ∀ i < 56, 5 ≤ i → pbit payloadT10a i = pbit payloadT10b i) i h hi
  · rw [pbit_beyond (by simpa [bitLength, payloadT10a] using h), pbit_beyond (by simpa [bitLength, payloadT10b] using h)]

/-- OnlyHeaderAndSpeechBitsMatter: V-T5a beside V-T4, which has more bytes and other trailing bits. -/
theorem witness_trailing_bits : rom .nb (payloadFrameType payloadT5a) = some 95 ∧
    transcode .nb payloadT5a = .accepted frameT4 ∧ 10 + 95 ≤ bitLength payloadT4 ∧ payloadT4 ≠ payloadT5a ∧
    ∀ i, 5 ≤ i → i < 10 + 95 → pbit payloadT4 i = pbit payloadT5a i := by
  refine ⟨by decide, by decide, by decide, by decide, fun i h1 h2 => ?_⟩
  exact (by decide : ∀ i < 105, 5 ≤ i → pbit payloadT4 i = pbit payloadT5a i) i h2 h1

/-- BeginOpensTheRun: one state for each clause. -/
theorem witness_begin : (haltedRun [] []).phase = .halted ∧ (openRun .nb [] []).phase = .opened ∧
    ((fresh [] []).phase = .idle ∧ ((0b10#2 = 0b10#2 ∨ 0b10#2 = 0b11#2) ∧ (0b11#2 = 0b10#2 ∨ 0b11#2 = 0b11#2))) ∧
    ((fresh [] [.ok]).phase = .idle ∧ (fresh [] [.ok]).nextAnswer = .ok) ∧
    ((fresh [] [.fail 9]).phase = .idle ∧ 0b01#2 = variantCode .wb ∧ (fresh [] [.fail 9]).nextAnswer = .fail 9) ∧
    (0x1200#16 &&& 0xF000#16 = 0x1000#16 ∧ 0x1200#16 &&& 0x03FF#16 ≠ 0#16 ∧
      (fresh [0x12, 0x00] []).input = wordBytes 0x1200#16 ++ []) := by decide

/-- SubmitAppendsOrDrops: one payload and state for each clause. -/
theorem witness_submit : (haltedRun [] []).phase = .halted ∧ (fresh [] []).phase = .idle ∧
    transcode (openRun .nb [] []).variant payloadT6 = .skipped ∧ transcode (openRun .nb [] []).variant payloadT9 = .failed ∧
    transcode (openRun .nb [] [.ok]).variant payloadT14 = .accepted frameT14 ∧ (openRun .nb [] [.ok]).nextAnswer = .ok ∧
    (openRun .nb [] [.fail 6]).nextAnswer = .fail 6 ∧ (openRun .nb [] [.fail 6]).phase = .opened ∧
    (0x2400#16 &&& 0xF000#16 = 0x2000#16 ∧ 0x2400#16 ≠ 0x2000#16 ∧ payloadT6.length = (2#16).toNat ∧
      (openRun .wb [0x24, 0x00, 0x00, 0x02, 0x04, 0x80] []).input =
        wordBytes 0x2400#16 ++ wordBytes 2#16 ++ payloadT6 ++ []) := by decide

/-- LookupReadsTheRom: the ends of each clause's range. -/
theorem witness_lookup : (0b11#2 = 0b10#2 ∨ 0b11#2 = 0b11#2) ∧ (0b01#2 = variantCode .wb ∧ rom .wb 9#4 = some 40) ∧
    (0b00#2 = variantCode .nb ∧ rom .nb 8#4 = some 39) ∧ rom .nb 9#4 = none ∧ rom .wb 10#4 = none ∧
    (0x3010#16 &&& 0xF000#16 = 0x3000#16 ∧ 0x3010#16 &&& 0x03F0#16 ≠ 0#16 ∧
      (fresh [0x30, 0x10] []).input = wordBytes 0x3010#16 ++ []) := by decide

/-- TranscodeAnswersTheFrame: one payload for each clause. -/
theorem witness_transcode : (0b10#2 = 0b10#2 ∨ 0b10#2 = 0b11#2) ∧
    (0b01#2 = variantCode .wb ∧ transcode .wb payloadT3 = .accepted frameT3) ∧
    (0b00#2 = variantCode .nb ∧ transcode .nb payloadT6 = .skipped) ∧ transcode .nb payloadT9 = .failed ∧
    (0x4001#16 &&& 0xF000#16 = 0x4000#16 ∧ 0x4001#16 &&& 0x03FF#16 ≠ 0#16 ∧ ([] : List Byte).length = (0#16).toNat ∧
      (fresh [0x40, 0x01, 0x00, 0x00] []).input = wordBytes 0x4001#16 ++ wordBytes 0#16 ++ [] ++ []) := by decide

/-- StatusAnswersStat, the illegal word. -/
theorem witness_status : 0x5400#16 &&& 0xF000#16 = 0x5000#16 ∧ 0x5400#16 ≠ 0x5000#16 ∧
    (openRun .nb [0x54, 0x00] []).datapath = none ∧
    (openRun .nb [0x54, 0x00] []).input = wordBytes 0x5400#16 ++ [] := by decide

/-- AcceptedFrameTypeRowsComplete: FT9_WB on a payload of its minimum length, for both clients and both answers. -/
theorem witness_accepted_rows : (nbFrameRows ++ wbFrameRows)[18]?.map (·.minPayload) = some payloadT3.length ∧
    (loaded .transcode .wb payloadT3 []).datapath = some ⟨.transcode, .wb, payloadT3⟩ ∧
    (loaded .submit .wb payloadT3 [.ok]).datapath = some ⟨.submit, .wb, payloadT3⟩ ∧
    (loaded .submit .wb payloadT3 [.ok]).nextAnswer = .ok ∧
    (loaded .submit .wb payloadT3 [.fail 3]).nextAnswer = .fail 3 := by decide

/-- ShortPayloadFailsInTheRow: FT0_NB on a payload one byte too short. -/
theorem witness_short_row : (nbFrameRows ++ wbFrameRows)[0]?.map (·.minPayload) = some (payloadT5b.length + 1) ∧
    (loaded .submit .nb payloadT5b []).datapath = some ⟨.submit, .nb, payloadT5b⟩ := by decide

/-- SkippedFrameTypeRowsComplete: FT9_NB. -/
theorem witness_skipped_row : (skippedRows[0]?.map fun row => row plain) = some (.ft9Nb plain) ∧
    (loaded .submit .nb payloadT6 []).datapath = some ⟨.submit, .nb, payloadT6⟩ := by decide

/-- RowsImplementTheTranscoder, on a payload with no whole header word too. -/
theorem witness_rows_implement : (loaded .submit .nb [0x00] []).datapath = some ⟨.submit, .nb, [0x00]⟩ := by decide

/-- PayloadCommandsRunTheirRow. -/
theorem witness_command_row : (openRun .wb [] []).phase = .opened ∧
    decodeHeader (openRun .wb [] []).variant payloadT3 = some (.ft9Wb ⟨0, 0, 0, 0x2A⟩) := by decide

/-- An open run's stream is its magic header. -/
theorem open_run_inv (v : Variant) (bytes : List Byte) (script : List SinkAnswer) : Inv (openRun v bytes script) :=
  ⟨rfl, nofun, rfl, ⟨[], nofun, (List.append_nil _).symm⟩, rfl⟩

/-- StepKeepsTheStreamInvariant: a SUBMIT that fails in the middle of its frame. -/
theorem witness_invariant_step :
    Inv (openRun .nb ([0x20, 0x00, 0x00, 0x07] ++ payloadT14) [.fail 2]) ∧
    ∃ t, step (openRun .nb ([0x20, 0x00, 0x00, 0x07] ++ payloadT14) [.fail 2]) = .next t :=
  ⟨open_run_inv .nb _ _, _, rfl⟩

/-- With no later run there is no reset to come. -/
theorem no_reset_comes {s : State} (h : s.laterRuns = []) : ¬ ResetComes s := fun hr => hr.2.2 h

/-- OutIsAppendOnly, VariantIsWrittenOnce and PhaseTransitions: BEGIN wb from reset changes all three. -/
theorem witness_begin_step : (fresh [0x14, 0x00] [.ok]).datapath = none ∧ ¬ ResetComes (fresh [0x14, 0x00] [.ok]) ∧
    ∃ t, step (fresh [0x14, 0x00] [.ok]) = .next t ∧ t.out ≠ (fresh [0x14, 0x00] [.ok]).out ∧
      t.variant ≠ (fresh [0x14, 0x00] [.ok]).variant ∧ t.phase ≠ (fresh [0x14, 0x00] [.ok]).phase :=
  ⟨rfl, no_reset_comes rfl, _, rfl, by decide, by decide, by decide⟩

/-- PhaseTransitions: the halts of an invalid variant and of a failed append. -/
theorem witness_halting_steps : ¬ ResetComes (fresh [0x18, 0x00] []) ∧
    (∃ t, step (fresh [0x18, 0x00] []) = .next t ∧ t.phase ≠ (fresh [0x18, 0x00] []).phase) ∧
    ¬ ResetComes (openRun .nb ([0x20, 0x00, 0x00, 0x07] ++ payloadT14) [.fail 0]) ∧
    ∃ t, step (openRun .nb ([0x20, 0x00, 0x00, 0x07] ++ payloadT14) [.fail 0]) = .next t ∧
      t.phase ≠ (openRun .nb ([0x20, 0x00, 0x00, 0x07] ++ payloadT14) [.fail 0]).phase :=
  ⟨no_reset_comes rfl, ⟨_, rfl, by decide⟩, no_reset_comes rfl, _, rfl, by decide⟩

/-- LastStatusIsTheReturnedStatus: STATUS and another command. -/
theorem witness_last_status : Instr.status.isCommand = true ∧ (Instr.lookup 1 8).isCommand = true ∧
    (∃ t, exec .status (fresh [] []) = .next t) ∧ ∃ t, exec (.lookup 1 8) (fresh [] []) = .next t :=
  ⟨rfl, rfl, ⟨_, rfl⟩, _, rfl⟩

/-- HaltedLastsUntilReset: a SUBMIT sent to a halted run (V-S9). -/
theorem witness_halted : (haltedRun ([0x20, 0x00, 0x00, 0x07] ++ payloadT14) []).phase = .halted ∧
    ¬ ResetComes (haltedRun ([0x20, 0x00, 0x00, 0x07] ++ payloadT14) []) ∧
    ∃ t, step (haltedRun ([0x20, 0x00, 0x00, 0x07] ++ payloadT14) []) = .next t :=
  ⟨rfl, no_reset_comes rfl, _, rfl⟩

/-- FailedAppendLeavesAnyPrefix, at BEGIN: all 9 bytes of the magic header (V-B7's kind), and 0 of them. -/
theorem witness_failed_begin : (fresh [] [.fail 9]).phase = .idle ∧ 9 ≤ (magic .wb).length ∧ 0 ≤ (magic .wb).length ∧
    ∃ t, exec (.beginRun (variantCode .wb)) (fresh [] [.fail 9]) = .next t ∧ t.lastStatus = .sinkUnavailable :=
  ⟨rfl, by decide, by decide, _, rfl, rfl⟩

/-- FailedAppendLeavesAnyPrefix, at SUBMIT (V-S8). -/
theorem witness_failed_submit : (openRun .nb [] [.fail 6]).phase = .opened ∧ 6 ≤ frameT14.length ∧
    transcode (openRun .nb [] [.fail 6]).variant payloadT14 = .accepted frameT14 ∧
    ∃ t, exec (.submit payloadT14) (openRun .nb [] [.fail 6]) = .next t ∧ t.lastStatus = .sinkUnavailable :=
  ⟨rfl, by decide, by decide, _, rfl, by decide⟩

/-- DroppedPayloadLeavesNoTrace: a skipped and a truncated payload. -/
theorem witness_dropped : (openRun .nb [] []).phase = .opened ∧ (openRun .nb [] []).datapath = none ∧
    (∀ f, transcode (openRun .nb [] []).variant payloadT6 ≠ .accepted f) ∧
    ∀ f, transcode (openRun .nb [] []).variant payloadT9 ≠ .accepted f := by
  refine ⟨rfl, rfl, fun f h => ?_, fun f h => ?_⟩
  · rw [show transcode (openRun .nb [] []).variant payloadT6 = .skipped by decide] at h
    cases h
  · rw [show transcode (openRun .nb [] []).variant payloadT9 = .failed by decide] at h
    cases h

/-- FramesAppearInSubmitOrder: an accepted and a dropped payload, from an open run and from reset. -/
theorem witness_submit_order : (openRun .wb [] [.ok, .ok]).phase = .opened ∧
    [payloadT3, payloadT9].length ≤ (openRun .wb [] [.ok, .ok]).sinkScript.length ∧
    (∀ a ∈ (openRun .wb [] [.ok, .ok]).sinkScript, a = .ok) ∧ (fresh [] [.ok, .ok, .ok]).phase = .idle ∧
    (fresh [] [.ok, .ok, .ok]).out = [] ∧
    [payloadT3, payloadT9].length < (fresh [] [.ok, .ok, .ok]).sinkScript.length ∧
    (∀ a ∈ (fresh [] [.ok, .ok, .ok]).sinkScript, a = .ok) ∧ acceptedFrame .wb payloadT3 = some frameT3 := by decide

/-- EmptyRunIsTheMagicHeader: a dropped payload (V-T15), and an invalid variant. -/
theorem witness_empty_run : (fresh [] [.ok]).phase = .idle ∧ (fresh [] [.ok]).out = [] ∧
    (fresh [] [.ok]).nextAnswer = .ok ∧ (∀ p ∈ [payloadT14], acceptedFrame .wb p = none) ∧
    (0b10#2 = 0b10#2 ∨ 0b10#2 = 0b11#2) := by decide

/-- StorageFileReadsBack: a run of an accepted and a dropped payload from reset, and an open run's state. -/
theorem witness_storage_file : (fresh [] [.ok, .ok, .ok]).phase = .idle ∧ (fresh [] [.ok, .ok, .ok]).out = [] ∧
    [payloadT3, payloadT9].length < (fresh [] [.ok, .ok, .ok]).sinkScript.length ∧
    (∀ a ∈ (fresh [] [.ok, .ok, .ok]).sinkScript, a = .ok) ∧ Inv (openRun .nb [] []) ∧
    (openRun .nb [] []).phase = .opened :=
  ⟨rfl, rfl, by decide, by decide, open_run_inv .nb [] [], rfl⟩

/-- StatWordLayout and ResponseWordLayout: each phase, variant and halt cause is some state's, and each status is listed. -/
theorem witness_stat_fields : (fresh [] []).phase = .idle ∧ (openRun .wb [] []).phase = .opened ∧
    (openRun .wb [] []).variant = .wb ∧ (haltedRun [] []).phase = .halted ∧ (haltedRun [] []).variant = .nb ∧
    (fresh [] []).haltCause = .notHalted ∧ (haltedRun [] []).haltCause = .invalidVariant ∧
    ((openRun .nb [] []).halt .sinkUnavailable).haltCause = .sinkUnavailable ∧ (.noCommand, 0xF#4) ∈ statusCodes ∧
    (fresh [] []).lastStatus = .noCommand ∧ (.illegalCmd, 0x7#4) ∈ statusCodes := by decide

/-- The reader on the OUT of P3: the variant and the three frames. -/
theorem test_read_storage_file : readStorageFile (magic .wb ++ frameT3 ++ frameT17 ++ frameT13) =
    some (.wb, [frameT3, frameT17, frameT13]) := by decide

end Sys2Proof.Tests
end

/-! The state of the block, 10_state.md: its reset values (R26), the layout of STAT (R20), the command a step runs (R15), and
what one command does to the run, from which the rules of OUT (R22), VARIANT (R17), PHASE (R16) and LAST_STATUS (R18) follow. -/

namespace Sys2Proof.Machine

open Sys2Proof Sys2Proof.Safety

/-! ### The step, by what stands in front of it -/

/-- With no payload in the datapath a step runs the command at the front of the stream (R15). -/
theorem step_of_command {s : State} {i : Instr} {rest : List Byte} (hd : s.datapath = none)
    (h : decode s.input = .command i rest) : step s = exec i (s.advance rest) := by
  simp only [step, hd, h]

/-- A reset that comes is what the step does (R113). -/
theorem step_of_resetComes {s : State} (h : ResetComes s) :
    ∃ run later, step s = .next (s.hardReset run later) := by
  obtain ⟨hd, hi, hl⟩ := h
  obtain ⟨run, later, hl⟩ := List.exists_cons_of_ne_nil hl
  exact ⟨run, later, by simp only [step, hd, hi, State.waitOrReset, hl]⟩

/-- With a payload in the datapath a step ends its command, with some result of the transcoder (log entry 6). -/
theorem step_of_datapath {s t : State} {d : Datapath} (hd : s.datapath = some d) (h : step s = .next t) :
    ∃ r, t = s.finish d.client r := by
  cases hi : decodeHeader d.variant d.payload with
  | none =>
    simp only [step, hd, hi, State.runDatapath, Host.Outcome.next.injEq] at h
    exact ⟨_, h.symm⟩
  | some i =>
    obtain ⟨b0, b1, rest, -, rfl⟩ := decodeHeader_cases hi
    simp only [step, hd, hi, exec_frameTypeRow, runFrameType_of_some hd, Host.Outcome.next.injEq] at h
    exact ⟨_, h.symm⟩

/-- No payload command writes VARIANT (R86, R82). -/
@[simp] theorem State.finish_variant (c : Client) (r : TranscodeResult) (s : State) :
    (s.finish c r).variant = s.variant := by
  obtain ⟨-, hv, -, -⟩ := finish_frame c r s
  exact hv

/-! ### What one command does to the run -/

/-- The two states have the same run: every field that BEGIN, SUBMIT and reset alone write. -/
structure SameRun (s t : State) : Prop where
  phase     : t.phase = s.phase
  variant   : t.variant = s.variant
  haltCause : t.haltCause = s.haltCause
  out       : t.out = s.out
  sinkFile  : t.sinkFile = s.sinkFile
  sinkDraws : t.sinkDraws = s.sinkDraws

/-- What a command does to the run: nothing, or one of the five effects that BEGIN in IDLE and SUBMIT in OPEN have (R84,
R86, R34). -/
inductive RunEffect : Instr → State → State → Prop
  | same {i : Instr} {s t : State} (kept : SameRun s t) : RunEffect i s t
  | invalidVariant {v : BitVec 2} {s t : State} (idle : s.phase = .idle) (phase : t.phase = .halted)
      (status : t.lastStatus = .invalidVariant) (variant : t.variant = s.variant) (out : t.out = s.out) :
      RunEffect (.beginRun v) s t
  | begun {x : Variant} {s t : State} (idle : s.phase = .idle) (phase : t.phase = .opened)
      (status : t.lastStatus = .ok) (variant : t.variant = x) (out : t.out = s.out ++ magic x) :
      RunEffect (.beginRun (variantCode x)) s t
  | magicCut {x : Variant} {k : Nat} {s t : State} (idle : s.phase = .idle) (phase : t.phase = .halted)
      (status : t.lastStatus = .sinkUnavailable) (variant : t.variant = x) (out : t.out = s.out ++ (magic x).take k) :
      RunEffect (.beginRun (variantCode x)) s t
  | frameAppended {p f : List Byte} {s t : State} (phase : t.phase = s.phase) (variant : t.variant = s.variant)
      (out : t.out = s.out ++ f) : RunEffect (.submit p) s t
  | frameCut {p f : List Byte} {k : Nat} {s t : State} (opened : s.phase = .opened) (phase : t.phase = .halted)
      (status : t.lastStatus = .sinkUnavailable) (variant : t.variant = s.variant) (out : t.out = s.out ++ f.take k) :
      RunEffect (.submit p) s t

/-- A response leaves the run as it is (R18). -/
theorem respond_sameRun (st : Status) (data : Nat) (s : State) : SameRun s (s.respond st data) :=
  ⟨rfl, rfl, rfl, rfl, rfl, rfl⟩

/-- The end of a TRANSCODE leaves the run as it is (R82). -/
theorem finish_transcode_sameRun (r : TranscodeResult) (s : State) : SameRun s (s.finish .transcode r) := by
  cases r <;> exact ⟨rfl, rfl, rfl, rfl, rfl, rfl⟩

/-- The end of a SUBMIT in an open run (R86). -/
theorem finish_submit_runEffect {s : State} (p : List Byte) (r : TranscodeResult) (ho : s.phase = .opened) :
    RunEffect (.submit p) s (s.finish .submit r) := by
  obtain ⟨hp, hc, hout, hf, hn, -, -⟩ | ⟨f, -, -, hp, -, hout, -, -⟩ | ⟨f, k, -, -, hp, -, hout, hs⟩ :=
    finish_cases .submit r s
  · exact .same ⟨hp, State.finish_variant .., hc, hout, hf, hn⟩
  · exact .frameAppended hp (State.finish_variant ..) hout
  · exact .frameCut ho hp hs (State.finish_variant ..) hout

/-- Every command of the stream has one of the effects on the run. -/
theorem exec_runEffect {i : Instr} {s t : State} (hi : i.isCommand = true) (h : exec i s = .next t) :
    RunEffect i s t := by
  cases i <;> simp only [Instr.isCommand, Bool.false_eq_true] at hi
  case beginRun v =>
    obtain ⟨-, rfl⟩ | ⟨-, rfl⟩ | ⟨hp, -, rfl⟩ | ⟨x, hp, hv, -, rfl⟩ | ⟨x, k, hp, hv, -, rfl⟩ := execBegin_cases h
    · exact .same (respond_sameRun ..)
    · exact .same (respond_sameRun ..)
    · exact .invalidVariant hp rfl rfl rfl rfl
    · rw [variantOf_eq_some.mp hv]
      exact .begun hp rfl rfl rfl rfl
    · rw [variantOf_eq_some.mp hv]
      exact .magicCut hp rfl rfl rfl rfl
  case submit p =>
    obtain ⟨-, rfl⟩ | ⟨-, rfl⟩ | ⟨hp, rfl⟩ := execSubmit_cases h
    · exact .same (respond_sameRun ..)
    · exact .same (respond_sameRun ..)
    · exact finish_submit_runEffect p _ hp
  case lookup v ft =>
    obtain ⟨-, rfl⟩ | ⟨x, n, -, -, rfl⟩ | ⟨x, -, -, rfl⟩ := execLookup_cases h <;> exact .same (respond_sameRun ..)
  case transcode v p =>
    obtain ⟨-, rfl⟩ | ⟨x, -, rfl⟩ := execTranscode_cases h
    · exact .same (respond_sameRun ..)
    · exact .same (finish_transcode_sameRun ..)
  case status =>
    cases h
    exact .same ⟨rfl, rfl, rfl, rfl, rfl, rfl⟩

/-- A step between commands that is no reset keeps the run, or has the effect of the command it runs. -/
theorem step_runEffect {s t : State} (hd : s.datapath = none) (hr : ¬ ResetComes s) (h : step s = .next t) :
    SameRun s t ∨ ∃ i rest, decode s.input = .command i rest ∧ RunEffect i (s.advance rest) t := by
  obtain ⟨d, i, hd', -, -⟩ | ⟨d, hd', -, -⟩ | ⟨i, rest, -, hi, he⟩ | ⟨cw, rest, -, -, rfl⟩ | ⟨-, -, -, rfl⟩ |
    ⟨run, later, -, hi, hl, -⟩ := step_cases h
  · simp [hd] at hd'
  · simp [hd] at hd'
  · exact .inr ⟨i, rest, hi, exec_runEffect (decode_isCommand hi) he⟩
  · exact .inl ⟨rfl, rfl, rfl, rfl, rfl, rfl⟩
  · exact .inl ⟨rfl, rfl, rfl, rfl, rfl, rfl⟩
  · exact absurd ⟨hd, hi, by simp [hl]⟩ hr

section
variable {i : Instr} {s t : State}

/-- No effect takes a byte of OUT back (R22). -/
theorem RunEffect.out_prefix (h : RunEffect i s t) : s.out <+: t.out := by
  cases h with
  | same kept => rw [kept.out]
  | invalidVariant _ _ _ _ out => rw [out]
  | begun _ _ _ _ out => exact ⟨_, out.symm⟩
  | magicCut _ _ _ _ out => exact ⟨_, out.symm⟩
  | frameAppended _ _ out => exact ⟨_, out.symm⟩
  | frameCut _ _ _ _ out => exact ⟨_, out.symm⟩

/-- Only BEGIN and SUBMIT have an effect on OUT (R22). -/
theorem RunEffect.of_out_ne (h : RunEffect i s t) (hne : t.out ≠ s.out) :
    (∃ v, i = .beginRun v) ∨ ∃ p, i = .submit p := by
  cases h with
  | same kept => exact absurd kept.out hne
  | invalidVariant => exact .inl ⟨_, rfl⟩
  | begun => exact .inl ⟨_, rfl⟩
  | magicCut => exact .inl ⟨_, rfl⟩
  | frameAppended => exact .inr ⟨_, rfl⟩
  | frameCut => exact .inr ⟨_, rfl⟩

/-- Only a BEGIN that leaves IDLE has an effect on VARIANT (R17). -/
theorem RunEffect.of_variant_ne (h : RunEffect i s t) (hne : t.variant ≠ s.variant) :
    s.phase = .idle ∧ t.phase ≠ .idle ∧ i = .beginRun (variantCode t.variant) := by
  cases h with
  | same kept => exact absurd kept.variant hne
  | invalidVariant _ _ _ variant _ => exact absurd variant hne
  | begun idle phase _ variant _ => exact ⟨idle, by simp [phase], by rw [variant]⟩
  | magicCut idle phase _ variant _ => exact ⟨idle, by simp [phase], by rw [variant]⟩
  | frameAppended _ variant _ => exact absurd variant hne
  | frameCut _ _ _ variant _ => exact absurd variant hne

/-- The effects that move PHASE, with the status they end in (R16). -/
theorem RunEffect.of_phase_ne (h : RunEffect i s t) (hne : t.phase ≠ s.phase) :
    (s.phase = .idle ∧ (∃ v, i = .beginRun v) ∧
      ((t.phase = .opened ∧ t.lastStatus = .ok) ∨
        (t.phase = .halted ∧ (t.lastStatus = .invalidVariant ∨ t.lastStatus = .sinkUnavailable)))) ∨
    (s.phase = .opened ∧ (∃ p, i = .submit p) ∧ t.phase = .halted ∧ t.lastStatus = .sinkUnavailable) := by
  cases h with
  | same kept => exact absurd kept.phase hne
  | invalidVariant idle phase status _ _ => exact .inl ⟨idle, ⟨_, rfl⟩, .inr ⟨phase, .inl status⟩⟩
  | begun idle phase status _ _ => exact .inl ⟨idle, ⟨_, rfl⟩, .inl ⟨phase, status⟩⟩
  | magicCut idle phase status _ _ => exact .inl ⟨idle, ⟨_, rfl⟩, .inr ⟨phase, .inr status⟩⟩
  | frameAppended phase _ _ => exact absurd phase hne
  | frameCut opened phase status _ _ => exact .inr ⟨opened, ⟨_, rfl⟩, phase, status⟩

end

/-! ### What one command answers -/

/-- The command from `s` to `t` wrote LAST_STATUS, not with NONE, and sent it in a response word, with a DATA of at most the
largest ROM entry, before anything else it sent (R18, R58). -/
def ReturnsItsStatus (s t : State) : Prop :=
  t.lastStatus ≠ .noCommand ∧
    ∃ data more, data ≤ 477 ∧ t.responses = s.responses ++ wordBytes (responseWord t.lastStatus data) ++ more

/-- A response made after updates that sent nothing returns its status. -/
theorem respond_returnsItsStatus {s u : State} {st : Status} {data : Nat} (hu : u.responses = s.responses)
    (hst : st ≠ .noCommand) (hdata : data ≤ 477) : ReturnsItsStatus s (u.respond st data) :=
  ⟨hst, data, [], hdata, by simp [hu]⟩

/-- Bytes sent after the response word leave it at the front (R60). -/
theorem ReturnsItsStatus.sendBytes {s t : State} (h : ReturnsItsStatus s t) (f : List Byte) :
    ReturnsItsStatus s (t.sendBytes f) := by
  obtain ⟨hst, data, more, hdata, hresp⟩ := h
  exact ⟨hst, data, more ++ f, hdata, by simp [hresp]⟩

/-- The invalid-variant halt answers INVALID_VARIANT (R98). -/
theorem haltInvalidVariant_returnsItsStatus (s : State) : ReturnsItsStatus s s.haltInvalidVariant :=
  respond_returnsItsStatus (u := s.halt .invalidVariant) rfl (by decide) (by decide)

/-- A failed append answers SINK_UNAVAILABLE (R97). -/
theorem appendFailed_returnsItsStatus {s u : State} (k : Nat) (bytes : List Byte) (hu : u.responses = s.responses) :
    ReturnsItsStatus s (u.appendFailed k bytes) :=
  respond_returnsItsStatus hu (by decide) (by decide)

/-- The magic headers have 6 and 9 bytes (R50). -/
theorem magic_length_le (x : Variant) : (magic x).length ≤ 9 := by
  cases x <;> decide

/-- A payload command returns its status, with a frame's length as DATA where one was made (R60, R83). -/
theorem finish_returnsItsStatus (c : Client) (v : Variant) (p : List Byte) (s : State) :
    ReturnsItsStatus s (s.finish c (transcode v p)) := by
  cases hr : transcode v p with
  | skipped => exact respond_returnsItsStatus rfl (by decide) (by decide)
  | failed => exact respond_returnsItsStatus rfl (by decide) (by decide)
  | accepted f =>
    have hf : f.length ≤ 477 := (accepted_length hr).trans (by decide)
    cases c with
    | transcode => exact (respond_returnsItsStatus rfl (by decide) hf).sendBytes f
    | submit =>
      rw [finish_submit]
      cases ha : State.nextAnswer { s with datapath := none } with
      | ok =>
        rw [appendFrame_of_ok ha]
        exact respond_returnsItsStatus rfl (by decide) hf
      | fail k =>
        rw [appendFrame_of_fail ha]
        exact appendFailed_returnsItsStatus k f rfl

/-- Every command but STATUS returns its status (R18). -/
theorem exec_returnsItsStatus {i : Instr} {s t : State} (hi : i.isCommand = true) (hne : i ≠ .status)
    (h : exec i s = .next t) : ReturnsItsStatus s t := by
  cases i <;> simp only [Instr.isCommand, Bool.false_eq_true] at hi
  case beginRun v =>
    obtain ⟨-, rfl⟩ | ⟨-, rfl⟩ | ⟨-, -, rfl⟩ | ⟨x, -, -, -, rfl⟩ | ⟨x, k, -, -, -, rfl⟩ := execBegin_cases h
    · exact respond_returnsItsStatus rfl (by decide) (by decide)
    · exact respond_returnsItsStatus rfl (by decide) (by decide)
    · exact haltInvalidVariant_returnsItsStatus s
    · exact respond_returnsItsStatus rfl (by decide) ((magic_length_le x).trans (by decide))
    · exact appendFailed_returnsItsStatus k _ rfl
  case submit p =>
    obtain ⟨-, rfl⟩ | ⟨-, rfl⟩ | ⟨-, rfl⟩ := execSubmit_cases h
    · exact respond_returnsItsStatus rfl (by decide) (by decide)
    · exact respond_returnsItsStatus rfl (by decide) (by decide)
    · exact finish_returnsItsStatus ..
  case lookup v ft =>
    obtain ⟨-, rfl⟩ | ⟨x, n, -, hn, rfl⟩ | ⟨x, -, -, rfl⟩ := execLookup_cases h
    · exact respond_returnsItsStatus rfl (by decide) (by decide)
    · obtain ⟨-, hn⟩ := rom_bounds hn
      exact respond_returnsItsStatus rfl (by decide) hn
    · exact respond_returnsItsStatus rfl (by decide) (by decide)
  case transcode v p =>
    obtain ⟨-, rfl⟩ | ⟨x, -, rfl⟩ := execTranscode_cases h
    · exact respond_returnsItsStatus rfl (by decide) (by decide)
    · exact finish_returnsItsStatus ..
  case status => exact absurd rfl hne

/-! ### The STAT word -/

/-- STAT after reset (R20, R26). -/
theorem statWord_reset : statWord State.reset = 0x000F#16 := rfl

/-- STAT is read from fields of the block alone, and a reset gives them their reset values (R113). -/
theorem statWord_hardReset (run : List Byte) (later : List (List Byte)) (s : State) :
    statWord (s.hardReset run later) = statWord State.reset := rfl

/-- The fields of STAT (R20): each round of the proof passes over the lowest field still left and reads the next one. -/
theorem statWord_fields (s : State) :
    (statWord s).extractLsb' 0 4 = s.lastStatus.code ∧ (statWord s).extractLsb' 4 2 = s.phase.code ∧
      (statWord s).extractLsb' 6 2 = variantCode s.variant ∧ (statWord s).extractLsb' 8 4 = s.haltCause.code ∧
      (statWord s).extractLsb' 12 4 = 0#4 := by
  refine ⟨BitVec.extractLsb'_append_eq_right, ?_, ?_, ?_, ?_⟩
  all_goals refine (BitVec.extractLsb'_append_eq_of_le (by decide)).trans ?_
  · exact BitVec.extractLsb'_append_eq_right
  all_goals refine (BitVec.extractLsb'_append_eq_of_le (by decide)).trans ?_
  · exact BitVec.extractLsb'_append_eq_right
  all_goals refine (BitVec.extractLsb'_append_eq_of_le (by decide)).trans ?_
  · exact BitVec.extractLsb'_append_eq_right
  · exact BitVec.extractLsb'_append_eq_left

/-- The list of R59 gives every status its code. -/
theorem code_of_mem_statusCodes : ∀ c ∈ statusCodes, c.1.code = c.2 := by
  decide

/-! ### The obligations -/

/-- Settles O4: the step's own case for a decoded command. -/
theorem stepRunsTheDecodedCommand : Obligations.StepRunsTheDecodedCommand := by
  intro s i rest hd h
  exact step_of_command hd h

/-- Settles O1: a reset that comes is a `hardReset`, which has the reset value in every field of the block. -/
theorem resetGivesTheResetValues : Obligations.ResetGivesTheResetValues := by
  refine ⟨⟨rfl, rfl, rfl, rfl, rfl, rfl, statWord_reset⟩, ⟨rfl, rfl⟩, fun s hs => ?_⟩
  obtain ⟨run, later, h⟩ := step_of_resetComes hs
  exact ⟨_, h, rfl, rfl, rfl, rfl, rfl, rfl, (statWord_hardReset ..).trans statWord_reset⟩

/-- Settles O15: each field of STAT is its code, and the codes are those of the spec's lists. -/
theorem statWordLayout : Obligations.StatWordLayout := by
  refine ⟨fun s => ?_, statWord_reset⟩
  obtain ⟨hstatus, hphase, hvariant, hcause, htop⟩ := statWord_fields s
  rw [hstatus, hphase, hvariant, hcause]
  refine ⟨⟨rfl, fun c hc h => ?_⟩, ⟨rfl, ?_, ?_, ?_⟩, ⟨rfl, ?_, ?_⟩, ⟨rfl, ?_, ?_, ?_⟩, htop⟩
  · rw [h, code_of_mem_statusCodes c hc]
  all_goals
    intro h
    rw [h]
    rfl

/-- Settles O36: no effect on the run takes a byte of OUT back, and only those of BEGIN and SUBMIT add one. -/
theorem outIsAppendOnly : Obligations.OutIsAppendOnly := by
  intro s t hd hr h
  obtain kept | ⟨i, rest, hi, effect⟩ := step_runEffect hd hr h
  · exact ⟨by rw [kept.out], fun hne => absurd kept.out hne⟩
  · refine ⟨effect.out_prefix, fun hne => ?_⟩
    obtain ⟨v, rfl⟩ | ⟨p, rfl⟩ := effect.of_out_ne hne
    · exact .inl ⟨v, rest, hi⟩
    · exact .inr ⟨p, rest, hi⟩

/-- Settles O37: the end of a loaded payload leaves VARIANT, and of the effects on the run only BEGIN's write it. -/
theorem variantIsWrittenOnce : Obligations.VariantIsWrittenOnce := by
  intro s t hr h hne
  cases hd : s.datapath with
  | some d =>
    obtain ⟨r, rfl⟩ := step_of_datapath hd h
    exact absurd (State.finish_variant ..) hne
  | none =>
    obtain kept | ⟨i, rest, hi, effect⟩ := step_runEffect hd hr h
    · exact absurd kept.variant hne
    · obtain ⟨hs, ht, rfl⟩ := effect.of_variant_ne hne
      exact ⟨hs, ht, t.variant, rest, hi, rfl⟩

/-- Settles O38: of the effects on the run only BEGIN's and the cut frame's write PHASE. -/
theorem phaseTransitions : Obligations.PhaseTransitions := by
  intro s t hd hr h hne
  obtain kept | ⟨i, rest, hi, effect⟩ := step_runEffect hd hr h
  · exact absurd kept.phase hne
  · obtain ⟨hs, ⟨v, rfl⟩, ht⟩ | ⟨hs, ⟨p, rfl⟩, ht⟩ := effect.of_phase_ne hne
    · exact .inl ⟨hs, ⟨v, rest, hi⟩, ht⟩
    · exact .inr ⟨hs, ⟨p, rest, hi⟩, ht⟩

/-- Settles O39: each command's answer is one response, and STATUS sends STAT without writing LAST_STATUS. -/
theorem lastStatusIsTheReturnedStatus : Obligations.LastStatusIsTheReturnedStatus := by
  intro i s t hi h
  refine ⟨?_, fun hne => exec_returnsItsStatus hi hne h⟩
  rintro rfl
  cases h
  exact State.respondStat_lastStatus s

end Sys2Proof.Machine

/-! The sink and the storage file it receives, 20_memory.md: what a failed append leaves in OUT (R34), and that a reader of
storage files (R31, R62) finds the accepted payloads' frames in what the block wrote. -/

namespace Sys2Proof.Machine

open Sys2Proof Sys2Proof.Safety

/-! ### The two commands that append, where they append -/

/-- BEGIN in IDLE with the code of a variant opens that variant's stream (R84). -/
theorem exec_begin_of_idle {s : State} (x : Variant) (h : s.phase = .idle) :
    exec (.beginRun (variantCode x)) s = .next (s.beginStream x) := by
  simp only [exec, execBegin, h, variantOf_variantCode]

/-- SUBMIT of an accepted payload in an open run appends its frame (R86, R87). -/
theorem exec_submit_of_accepted {s : State} {p f : List Byte} (ho : s.phase = .opened)
    (hf : transcode s.variant p = .accepted f) :
    exec (.submit p) s = .next ({ s with datapath := none }.appendFrame f) := by
  rw [exec_submit_of_opened p ho, hf, finish_submit]

/-! ### A failed append -/

/-- The bytes a failed append took are no more than it was offered (R34). -/
theorem appendFailed_out_take (k : Nat) (bytes : List Byte) (s : State) :
    ∃ j, j ≤ bytes.length ∧ (s.appendFailed k bytes).out = s.out ++ bytes.take j ∧
      (s.appendFailed k bytes).phase = .halted :=
  ⟨min k bytes.length, Nat.min_le_right .., by rw [State.appendFailed_out, List.take_eq_take_min], rfl⟩

/-- A BEGIN of a valid variant that ends SINK_UNAVAILABLE failed in its append (R84, R97). -/
theorem beginStream_of_sinkUnavailable {s : State} {x : Variant}
    (h : (s.beginStream x).lastStatus = .sinkUnavailable) :
    ∃ k, s.beginStream x = { s with variant := x }.appendFailed k (magic x) := by
  cases ha : s.nextAnswer with
  | ok => simp [beginStream_of_ok ha] at h
  | fail k => exact ⟨k, beginStream_of_fail ha⟩

/-- A frame's append that ends SINK_UNAVAILABLE failed (R87, R97). -/
theorem appendFrame_of_sinkUnavailable {s : State} {f : List Byte}
    (h : (s.appendFrame f).lastStatus = .sinkUnavailable) : ∃ k, s.appendFrame f = s.appendFailed k f := by
  cases ha : s.nextAnswer with
  | ok => simp [appendFrame_of_ok ha] at h
  | fail k => exact ⟨k, appendFrame_of_fail ha⟩

/-! ### Runs on a sink that accepts every append -/

/-- The sink's list has answers for the next `n` appends at least, and accepts every append it lists (log entry 2). -/
def SinkAccepts (n : Nat) (s : State) : Prop :=
  n ≤ s.sinkScript.length ∧ ∀ a ∈ s.sinkScript, a = .ok

/-- The next append is accepted (R38). -/
theorem SinkAccepts.nextAnswer {n : Nat} {s : State} (h : SinkAccepts (n + 1) s) : s.nextAnswer = .ok := by
  obtain ⟨hlen, hok⟩ := h
  obtain ⟨a, as, has⟩ := List.exists_cons_of_length_pos (Nat.zero_lt_of_lt hlen)
  rw [nextAnswer_of_cons has, hok a (by simp [has])]

/-- After a command with at most one append one listed answer fewer is sure. -/
theorem SinkAccepts.of_script {n : Nat} {s t : State} (h : SinkAccepts (n + 1) s)
    (ht : t.sinkScript = s.sinkScript ∨ t.sinkScript = s.sinkScript.tail) : SinkAccepts n t := by
  obtain ⟨hlen, hok⟩ := h
  obtain ht | ht := ht
  · exact ⟨by rw [ht]; omega, by rwa [ht]⟩
  · exact ⟨by rw [ht, List.length_tail]; omega, fun a ha => hok a (List.mem_of_mem_tail (ht ▸ ha))⟩

/-- The frame a SUBMIT appends is the transcoder's (R86). -/
theorem acceptedFrame_eq_some {v : Variant} {p f : List Byte} :
    acceptedFrame v p = some f ↔ transcode v p = .accepted f := by
  simp only [acceptedFrame]
  cases transcode v p <;> simp

/-- A BEGIN in IDLE whose append is accepted opens the run, with the magic header after what OUT held (R84). -/
theorem exec_begin_of_ok {s : State} (x : Variant) (hp : s.phase = .idle) (ha : s.nextAnswer = .ok) :
    ∃ t, exec (.beginRun (variantCode x)) s = .next t ∧ t.phase = .opened ∧ t.variant = x ∧
      t.out = s.out ++ magic x ∧ t.sinkScript = s.sinkScript.tail := by
  refine ⟨_, exec_begin_of_idle x hp, ?_⟩
  rw [beginStream_of_ok ha]
  exact ⟨rfl, rfl, rfl, rfl⟩

/-- One SUBMIT in an open run whose next append is accepted: the run stays open, and OUT gains the payload's frame, if it has
one (R86 to R88). -/
theorem exec_submit_of_ok {s : State} (p : List Byte) (ho : s.phase = .opened) (ha : s.nextAnswer = .ok) :
    ∃ t, exec (.submit p) s = .next t ∧ t.phase = .opened ∧ t.variant = s.variant ∧
      t.out = s.out ++ (acceptedFrame s.variant p).getD [] ∧
      (t.sinkScript = s.sinkScript ∨ t.sinkScript = s.sinkScript.tail) := by
  refine ⟨_, exec_submit_of_opened p ho, ?_⟩
  cases hr : transcode s.variant p with
  | skipped => simp [finish_skipped, acceptedFrame, hr, ho]
  | failed => simp [finish_failed, acceptedFrame, hr, ho]
  | accepted f =>
    rw [finish_submit, appendFrame_of_ok (s := { s with datapath := none }) ha]
    simp [acceptedFrame, hr, ho]

/-- SUBMITs on an accepting sink leave the run open, and OUT gains the accepted payloads' frames in order (R89). -/
theorem runAll_submits {payloads : List (List Byte)} {s : State} (ho : s.phase = .opened)
    (hs : SinkAccepts payloads.length s) :
    ∃ t, runAll (payloads.map .submit) s = .next t ∧ t.phase = .opened ∧
      t.out = s.out ++ (payloads.filterMap (acceptedFrame s.variant)).flatten := by
  induction payloads generalizing s with
  | nil => exact ⟨s, rfl, ho, by simp⟩
  | cons p ps ih =>
    obtain ⟨u, hu, huo, huv, hout, hscript⟩ := exec_submit_of_ok p ho hs.nextAnswer
    obtain ⟨t, ht, hto, htout⟩ := ih huo (hs.of_script hscript)
    refine ⟨t, by simpa only [List.map_cons, runAll, hu] using ht, hto, ?_⟩
    rw [htout, hout, huv]
    cases hf : acceptedFrame s.variant p <;> simp [hf]

/-- A BEGIN and SUBMITs on an accepting sink leave the run open, and the accepted payloads' frames in OUT immediately after
the magic header (R89). -/
theorem runAll_begin_submits {x : Variant} {payloads : List (List Byte)} {s : State} (hp : s.phase = .idle)
    (hout : s.out = []) (hs : SinkAccepts (payloads.length + 1) s) :
    ∃ t, runAll (.beginRun (variantCode x) :: payloads.map .submit) s = .next t ∧ t.phase = .opened ∧
      t.out = magic x ++ (payloads.filterMap (acceptedFrame x)).flatten := by
  obtain ⟨u, hu, huo, huv, huout, hscript⟩ := exec_begin_of_ok x hp hs.nextAnswer
  obtain ⟨t, ht, hto, htout⟩ := runAll_submits huo (hs.of_script (.inr hscript))
  exact ⟨t, by simpa only [runAll, hu] using ht, hto, by rw [htout, huout, huv, hout, List.nil_append]⟩

/-! ### Storage frames -/

/-- What the check of a storage frame asks of the header byte and the bytes after it (R48, R49). -/
theorem isStorageFrame_cons_iff {v : Variant} {h : Byte} {body : List Byte} :
    isStorageFrame v (h :: body) = true ↔
      ∃ r, frameRow v (headerFrameType h) = some r ∧ h &&& 0xFB#8 = r.header ∧ body.length + 1 = r.frameBytes ∧
        body.getLastD 0 &&& BitVec.ofNat 8 (2 ^ r.pad - 1) = 0 := by
  simp only [isStorageFrame]
  cases frameRow v (headerFrameType h) <;> simp [and_assoc]

/-- A storage frame has a header byte with a row in R49's table, and the row's number of bytes. -/
theorem exists_row_of_isStorageFrame {v : Variant} {f : List Byte} (hf : isStorageFrame v f = true) :
    ∃ h body r, f = h :: body ∧ frameRow v (headerFrameType h) = some r ∧ body.length + 1 = r.frameBytes := by
  cases f with
  | nil => simp [isStorageFrame] at hf
  | cons h body =>
    obtain ⟨r, hr, -, hlen, -⟩ := isStorageFrame_cons_iff.mp hf
    exact ⟨h, body, r, rfl, hr, hlen⟩

/-- The header byte names its frame type, and without Q it is the header byte of Q 0 (R48). -/
theorem headerByte_fields (ft : BitVec 4) (q : BitVec 1) :
    headerFrameType (headerByte ft q) = ft ∧ headerByte ft q &&& 0xFB#8 = headerByte ft 0#1 := by
  revert ft q
  decide

/-- The last byte of a bit sequence packed with zeros at its end has those zeros in its low bits (R11, R76). -/
theorem pack_getLastD_and_pad {bits : List Bool} {pad m : Nat} (h : bits.length + pad = 8 * (m + 1)) :
    (pack (bits ++ List.replicate pad false)).getLastD 0 &&& BitVec.ofNat 8 (2 ^ pad - 1) = 0 := by
  have hlast : (pack (bits ++ List.replicate pad false)).getLastD 0 =
      byteOfBits fun j => (bits ++ List.replicate pad false).getD (8 * m + j) false := by
    simp [pack, h, List.range_succ]
  apply BitVec.eq_of_getLsbD_eq
  intro i hi
  rw [hlast, BitVec.getLsbD_and, BitVec.getLsbD_ofNat, Nat.testBit_two_pow_sub_one, show i = 7 - (7 - i) by omega,
    byteOfBits_getLsbD _ (by omega)]
  by_cases hp : i < pad
  · have hle : bits.length ≤ 8 * m + (7 - i) := by omega
    rw [List.getD_append_right _ _ _ _ hle, List.getD_eq_getElem?_getD, List.getElem?_getD_replicate_default_eq]
    simp
  · simp [show ¬ 7 - (7 - i) < pad by omega]

/-- The pad bits fill the speech bits up to whole bytes (R49, R76). -/
theorem add_padBits (n : Nat) : n + padBits n = 8 * speechBytes n := by
  simp only [padBits, speechBytes]
  omega

/-- What the transcoder accepts it answers with a storage frame of the variant, by R49's table (R78). -/
theorem isStorageFrame_of_accepted {v : Variant} {p f : List Byte} (h : transcode v p = .accepted f) :
    isStorageFrame v f = true := by
  obtain ⟨n, hn, -, rfl⟩ := transcode_accepted h
  obtain ⟨r, hr, rfl⟩ : ∃ r, frameRow v (payloadFrameType p) = some r ∧ r.bits = n := by
    simpa [rom_eq_frameRow] using hn
  obtain ⟨hpad, hbytes, -, hheader⟩ := frameRow_columns hr
  obtain ⟨hft, hmask⟩ := headerByte_fields (payloadFrameType p) (payloadQuality p)
  have hspeech := add_padBits r.bits
  obtain ⟨m, hm⟩ : ∃ m, speechBytes r.bits = m + 1 :=
    ⟨speechBytes r.bits - 1, by have := rom_bounds hn; simp only [speechBytes]; omega⟩
  refine isStorageFrame_cons_iff.mpr ⟨r, by rwa [hft], by simpa [hmask] using hheader 0, ?_, ?_⟩
  · simp only [pack_length, List.length_append, speechBits_length, List.length_replicate]
    omega
  · rw [hpad]
    exact pack_getLastD_and_pad (m := m) (by rw [speechBits_length, hspeech, hm])

/-! ### The reader -/

/-- The reader takes one storage frame off the front (R62). -/
theorem readFrames_append {v : Variant} {f : List Byte} (hf : isStorageFrame v f = true) (fuel : Nat)
    (rest : List Byte) : readFrames v (fuel + 1) (f ++ rest) = (readFrames v fuel rest).map (f :: ·) := by
  obtain ⟨h, body, r, rfl, hr, hlen⟩ := exists_row_of_isStorageFrame hf
  have hlong : ¬ (body ++ rest).length + 1 < body.length + 1 := by simp
  simp only [List.cons_append, readFrames, hr, ← hlen, if_neg hlong, List.drop_succ_cons, List.take_succ_cons,
    List.drop_left, List.take_left]

/-- The reader finds the frames of a concatenation of storage frames: each takes a byte, so the fuel is enough (R31, R62). -/
theorem readFrames_flatten {v : Variant} {frames : List (List Byte)} (hf : ∀ f ∈ frames, isStorageFrame v f = true)
    {fuel : Nat} (hfuel : frames.flatten.length ≤ fuel) : readFrames v fuel frames.flatten = some frames := by
  induction frames generalizing fuel with
  | nil => cases fuel <;> rfl
  | cons f fs ih =>
    obtain ⟨hhead, htail⟩ := List.forall_mem_cons.mp hf
    obtain ⟨h, body, -, rfl, -⟩ := exists_row_of_isStorageFrame hhead
    simp only [List.flatten_cons, List.length_append, List.length_cons] at hfuel
    obtain ⟨fuel, rfl⟩ : ∃ k, fuel = k + 1 := ⟨fuel - 1, by omega⟩
    rw [List.flatten_cons, readFrames_append hhead, ih htail (by omega), Option.map_some]

/-- The reader gives back the variant and the frames of a storage file (R31, R50, R62). -/
theorem readStorageFile_magic_append {v : Variant} {frames : List (List Byte)}
    (hf : ∀ f ∈ frames, isStorageFrame v f = true) :
    readStorageFile (magic v ++ frames.flatten) = some (v, frames) := by
  have hread : readFrames v (magic v ++ frames.flatten).length frames.flatten = some frames :=
    readFrames_flatten hf (by simp)
  cases v <;> simpa [readStorageFile, magic] using hread

/-- The accepted payloads' frames are storage frames (R78). -/
theorem isStorageFrame_of_mem_filterMap {v : Variant} {payloads : List (List Byte)} :
    ∀ f ∈ payloads.filterMap (acceptedFrame v), isStorageFrame v f = true := by
  intro f hf
  obtain ⟨p, -, hp⟩ := List.mem_filterMap.mp hf
  exact isStorageFrame_of_accepted (acceptedFrame_eq_some.mp hp)

/-! ### The obligations -/

/-- Settles O41: an append that fails after `k` bytes leaves the first `k` in OUT, and the sink may fail after any `k`. -/
theorem failedAppendLeavesAnyPrefix : Obligations.FailedAppendLeavesAnyPrefix := by
  refine fun s => ⟨fun x hp => ⟨fun t ht hst => ?_, fun k _ => ?_⟩,
    fun p f hp hf => ⟨fun t ht hst => ?_, fun k _ => ?_⟩⟩
  · rw [exec_begin_of_idle x hp] at ht
    cases ht
    obtain ⟨k, hk⟩ := beginStream_of_sinkUnavailable hst
    rw [hk]
    exact appendFailed_out_take k (magic x) { s with variant := x }
  · refine ⟨_, exec_begin_of_idle x hp, ?_⟩
    rw [beginStream_of_fail (nextAnswer_of_cons rfl)]
    exact ⟨rfl, rfl, rfl⟩
  · rw [exec_submit_of_accepted hp hf] at ht
    cases ht
    obtain ⟨k, hk⟩ := appendFrame_of_sinkUnavailable hst
    rw [hk]
    exact appendFailed_out_take k f { s with datapath := none }
  · refine ⟨_, exec_submit_of_accepted hp hf, ?_⟩
    rw [appendFrame_of_fail (nextAnswer_of_cons rfl)]
    exact ⟨rfl, rfl, rfl⟩

/-- Settles O45: the OUT of each is a magic header and storage frames, which the reader gives back. -/
theorem storageFileReadsBack : Obligations.StorageFileReadsBack := by
  refine ⟨fun v payloads => readStorageFile_magic_append isStorageFrame_of_mem_filterMap, ?_, ?_⟩
  · intro x payloads s hp hout hlen hok
    obtain ⟨t, ht, -, htout⟩ := runAll_begin_submits hp hout ⟨hlen, hok⟩
    refine ⟨t, ht, ?_⟩
    rw [htout]
    exact readStorageFile_magic_append isStorageFrame_of_mem_filterMap
  · intro s hinv ho
    obtain ⟨-, -, hstream⟩ := hinv
    simp only [StreamInv, ho] at hstream
    obtain ⟨-, ⟨frames, hframes, hout⟩, -⟩ := hstream
    exact ⟨frames, by rw [hout]; exact readStorageFile_magic_append hframes, hframes⟩

end Sys2Proof.Machine

/-! The encodings, 30_encoding.md: the commands of the stream and their round trip (R53 to R57), the illegal words and the
payloads that are consumed all the same (R55, R56), the header word's fields and its frame-type rows (R43 to R47), and the rows of
the frame table that complete their command (R49). -/

namespace Sys2Proof.Machine

open Sys2Proof Sys2Proof.Safety

/-! ### The five command words -/

/-- A command word with OP 0x1 and FTQ 0 is BEGIN, whatever its variant code (R54, R55). -/
theorem commandOf_begin (v : BitVec 2) (p : List Byte) : commandOf (commandWord 0x1#4 v 0) p = some (.beginRun v) := by
  simp [commandOf, legalCommand, commandWord_fields]

/-- The word 0x2000 is SUBMIT of the payload after it (R54, R55). -/
theorem commandOf_submit (p : List Byte) : commandOf (commandWord 0x2#4 0 0) p = some (.submit p) := by
  simp [commandOf, legalCommand, commandWord_fields]

/-- A command word with OP 0x3 is LOOKUP of its two operands (R54, R55). -/
theorem commandOf_lookup (v : BitVec 2) (ft : BitVec 4) (p : List Byte) :
    commandOf (commandWord 0x3#4 v ft) p = some (.lookup v ft) := by
  simp [commandOf, legalCommand, commandWord_fields]

/-- A command word with OP 0x4 and FTQ 0 is TRANSCODE of the payload after it, whatever its variant code (R54, R55). -/
theorem commandOf_transcode (v : BitVec 2) (p : List Byte) :
    commandOf (commandWord 0x4#4 v 0) p = some (.transcode v p) := by
  simp [commandOf, legalCommand, commandWord_fields]

/-- The word 0x5000 is STATUS (R54, R55). -/
theorem commandOf_status (p : List Byte) : commandOf (commandWord 0x5#4 0 0) p = some .status := by
  simp [commandOf, legalCommand, commandWord_fields]

/-! ### The decoder on an encoded command -/

/-- A word that spells a command is sorted as that command (R55). -/
theorem fetchedCommand_of_commandOf {cw : Word} {p rest : List Byte} {i : Instr} (h : commandOf cw p = some i) :
    fetchedCommand cw p rest = .command i rest := by
  simp only [fetchedCommand, h]

/-- A one-word command at the front of the stream is decoded, and the rest is left (R56). -/
theorem decode_of_wordCommand {cw : Word} {rest : List Byte} {i : Instr} (hp : takesPayload cw = false)
    (h : commandOf cw [] = some i) : decode (wordBytes cw ++ rest) = .command i rest := by
  rw [decode_wordCommand hp, fetchedCommand_of_commandOf h]

/-- A command with a payload that LEN can announce is decoded, and the rest is left (R56). -/
theorem decode_of_payloadCommand {cw : Word} {p rest : List Byte} {i : Instr} (hp : takesPayload cw = true)
    (hfit : payloadFits p = true) (h : commandOf cw p = some i) :
    decode (wordBytes cw ++ wordBytes (BitVec.ofNat 16 p.length) ++ p ++ rest) = .command i rest := by
  rw [decode_payloadCommand hp (payloadFits_toNat hfit), fetchedCommand_of_commandOf h]

/-- A one-word command encodes to its command word (R53). -/
theorem encode_of_wordCommand {cw : Word} {p : List Byte} {i : Instr} (hp : takesPayload cw = false)
    (h : commandOf cw p = some i) : i.wellFormed = true ∧ encode i = wordBytes cw := by
  obtain ⟨-, v, rfl, rfl⟩ | ⟨hp', -, -⟩ | ⟨-, v, ft, rfl, rfl⟩ | ⟨hp', -, -, -⟩ | ⟨-, rfl, rfl⟩ := commandOf_cases h
  · exact ⟨rfl, rfl⟩
  · simp [hp] at hp'
  · exact ⟨rfl, rfl⟩
  · simp [hp] at hp'
  · exact ⟨rfl, rfl⟩

/-- A command read with its payload encodes to its command word, its length word and that payload (R53, R56). -/
theorem encode_of_payloadCommand {cw : Word} {p : List Byte} {i : Instr} (hp : takesPayload cw = true)
    (h : commandOf cw p = some i) : i.wellFormed = payloadFits p ∧
      encode i = wordBytes cw ++ wordBytes (BitVec.ofNat 16 p.length) ++ p := by
  obtain ⟨hp', -, -, -⟩ | ⟨-, rfl, rfl⟩ | ⟨hp', -, -, -, -⟩ | ⟨-, v, rfl, rfl⟩ | ⟨hp', -, -⟩ := commandOf_cases h
  · simp [hp] at hp'
  · exact ⟨rfl, rfl⟩
  · simp [hp] at hp'
  · exact ⟨rfl, rfl⟩
  · simp [hp] at hp'

/-- A payload whose length a length word holds fits LEN, and the word is its length (R56). -/
theorem payloadFits_of_length {p : List Byte} {len : Word} (h : p.length = len.toNat) :
    payloadFits p = true ∧ BitVec.ofNat 16 p.length = len := by
  refine ⟨decide_eq_true ?_, by rw [h, BitVec.ofNat_toNat, BitVec.setWidth_eq]⟩
  have := len.isLt
  omega

/-! ### A step at a command word -/

/-- A step at a whole command, legal or not, answers a next state whose stream is what follows it (R55, R56). -/
theorem step_consumes {s : State} {cw : Word} {p rest : List Byte} (hd : s.datapath = none)
    (h : decode s.input = fetchedCommand cw p rest) : ∃ t, step s = .next t ∧ t.input = rest := by
  cases hl : legalCommand cw with
  | false =>
    rw [fetchedCommand_illegal hl] at h
    exact ⟨_, step_of_illegal hd h, rfl⟩
  | true =>
    obtain ⟨i, -, hi⟩ := fetchedCommand_legal (p := p) (rest := rest) hl
    rw [hi] at h
    obtain ⟨t, ht⟩ := exec_command_next (decode_isCommand h) (s.advance rest)
    exact ⟨t, (step_of_command hd h).trans ht, exec_input (decode_isCommand h) ht⟩

/-- With a payload in the datapath a step runs the row its header word decodes to (R72, log entry 6). -/
theorem step_of_header {s : State} {d : Datapath} {i : Instr} (hd : s.datapath = some d)
    (h : decodeHeader d.variant d.payload = some i) : step s = exec i s := by
  simp only [step, hd, h]

/-! ### The frame-type rows and their header words -/

/-- A row that is no command is the row of a variant and a frame type (R45). -/
theorem exists_frameTypeRow {i : Instr} (hi : i.isCommand = false) : ∃ v ft h, i = frameTypeRow v ft h := by
  cases i
  case beginRun | submit | lookup | transcode | status => cases hi
  exacts [⟨.nb, 0, _, rfl⟩, ⟨.nb, 1, _, rfl⟩, ⟨.nb, 2, _, rfl⟩, ⟨.nb, 3, _, rfl⟩, ⟨.nb, 4, _, rfl⟩, ⟨.nb, 5, _, rfl⟩,
    ⟨.nb, 6, _, rfl⟩, ⟨.nb, 7, _, rfl⟩, ⟨.nb, 8, _, rfl⟩, ⟨.nb, 9, _, rfl⟩, ⟨.nb, 10, _, rfl⟩, ⟨.nb, 11, _, rfl⟩,
    ⟨.nb, 12, _, rfl⟩, ⟨.nb, 13, _, rfl⟩, ⟨.nb, 14, _, rfl⟩, ⟨.nb, 15, _, rfl⟩,
    ⟨.wb, 0, _, rfl⟩, ⟨.wb, 1, _, rfl⟩, ⟨.wb, 2, _, rfl⟩, ⟨.wb, 3, _, rfl⟩, ⟨.wb, 4, _, rfl⟩, ⟨.wb, 5, _, rfl⟩,
    ⟨.wb, 6, _, rfl⟩, ⟨.wb, 7, _, rfl⟩, ⟨.wb, 8, _, rfl⟩, ⟨.wb, 9, _, rfl⟩, ⟨.wb, 10, _, rfl⟩, ⟨.wb, 11, _, rfl⟩,
    ⟨.wb, 12, _, rfl⟩, ⟨.wb, 13, _, rfl⟩, ⟨.wb, 14, _, rfl⟩, ⟨.wb, 15, _, rfl⟩]

/-- A payload that begins with a header word is decoded to the row of that word's fields (R45). -/
theorem decodeHeader_wordBytes (v : Variant) (hw : Word) (rest : List Byte) :
    decodeHeader v (wordBytes hw ++ rest) = some (frameTypeRow v (hwFrameType hw) (hwHeader hw)) := by
  simp only [wordBytes, List.cons_append, List.nil_append, decodeHeader, wordOfBytes_extract]

/-! ### The header word and the stream bits -/

/-- Stream bit `i` of the first two bytes is bit 15 - i of their word (R8, R10, R45). -/
theorem pbit_wordOfBytes (b0 b1 : Byte) (rest : List Byte) {i : Nat} (h : i < 16) :
    pbit (b0 :: b1 :: rest) i = (wordOfBytes b0 b1).getLsbD (15 - i) := by
  rw [wordOfBytes_getLsbD]
  by_cases hi : i < 8
  · rw [pbit_head _ _ hi, if_neg (by omega), show 15 - i - 8 = 7 - i by omega]
  · obtain ⟨j, rfl⟩ : ∃ j, i = 8 + j := ⟨i - 8, by omega⟩
    rw [pbit_tail, pbit_head _ _ (by omega), if_pos (by omega), show 15 - (8 + j) = 7 - j by omega]

/-- A field with one more stream bit is the field before it doubled, and that bit (R9). -/
theorem field_succ (p : List Byte) (a n : Nat) : field p a (n + 1) = 2 * field p a n + (pbit p (a + n)).toNat := by
  have double : ∀ k ∈ List.range n,
      (pbit p (a + k)).toNat <<< (n + 1 - 1 - k) = 2 * (pbit p (a + k)).toNat <<< (n - 1 - k) := by
    intro k hk
    have := List.mem_range.mp hk
    rw [show n + 1 - 1 - k = n - 1 - k + 1 by omega, Nat.shiftLeft_succ]
  simp only [field, List.range_succ, List.map_append, List.sum_append, List.map_congr_left double, List.sum_map_mul_left]
  simp

/-- Bit `i` of a field of `n` stream bits is the stream bit `i` before its last (R9). -/
theorem field_testBit (p : List Byte) (a : Nat) {n i : Nat} (h : i < n) :
    (field p a n).testBit i = pbit p (a + (n - 1 - i)) := by
  induction n generalizing i with
  | zero => omega
  | succ n ih =>
    rw [field_succ]
    cases i with
    | zero => cases hb : pbit p (a + n) <;> simp [Nat.add_mod, hb]
    | succ i =>
      rw [Nat.testBit_succ, show (2 * field p a n + (pbit p (a + n)).toNat) / 2 = field p a n by
        have := Bool.toNat_lt (pbit p (a + n)); omega, ih (by omega), show n + 1 - 1 - (i + 1) = n - 1 - i by omega]

/-- A stream field within the first two bytes is a field of their word (R9, R45). -/
theorem field_eq_extractLsb' (b0 b1 : Byte) (rest : List Byte) {a n : Nat} (h : a + n ≤ 16) :
    BitVec.ofNat n (field (b0 :: b1 :: rest) a n) = (wordOfBytes b0 b1).extractLsb' (16 - (a + n)) n := by
  apply BitVec.eq_of_getLsbD_eq
  intro i hi
  rw [BitVec.getLsbD_ofNat, BitVec.getLsbD_extractLsb', field_testBit _ _ hi, pbit_wordOfBytes _ _ _ (by omega),
    show 15 - (a + (n - 1 - i)) = 16 - (a + n) + i by omega]

/-- A stream bit of the first two bytes is a one-bit field of their word (R45). -/
theorem pbit_eq_extractLsb' (b0 b1 : Byte) (rest : List Byte) {i : Nat} (h : i < 16) :
    BitVec.ofBool (pbit (b0 :: b1 :: rest) i) = (wordOfBytes b0 b1).extractLsb' (15 - i) 1 := by
  apply BitVec.eq_of_getLsbD_eq
  intro j hj
  obtain rfl : j = 0 := by omega
  simp [pbit_wordOfBytes _ _ _ h]

/-- The opcode table's mask 0x0780 keeps the frame type in its place (R45). -/
theorem and_frameTypeMask (hw : Word) : hw &&& 0x0780#16 = (hwFrameType hw).setWidth 16 <<< 7 := by
  have mask : ∀ i < 16, (0x0780#16).getLsbD i = decide (7 ≤ i ∧ i < 11) := by decide
  apply BitVec.eq_of_getLsbD_eq
  intro i hi
  rw [BitVec.getLsbD_and, mask i hi, BitVec.getLsbD_shiftLeft, BitVec.getLsbD_setWidth, hwFrameType,
    BitVec.getLsbD_extractLsb']
  by_cases hft : 7 ≤ i ∧ i < 11
  · simp [hft, hi, show 7 + (i - 7) = i by omega, show ¬ i < 7 by omega, show i - 7 < 4 by omega, show i - 7 < 16 by omega]
  · by_cases h7 : i < 7
    · simp [h7]
    · simp [h7, show ¬ i < 11 by omega, show ¬ i - 7 < 4 by omega]

/-! ### What the transcoder reads -/

/-- After the header the transcoder reads a payload's length and its speech bits only (R73, R74, R79). -/
theorem frameTypeResult_congr (v : Variant) (ft : BitVec 4) (c : BitVec 1) {p q : List Byte} (hl : p.length = q.length)
    (hs : ∀ n, speechBits p n = speechBits q n) : frameTypeResult v ft c p = frameTypeResult v ft c q := by
  have hb : bitLength p = bitLength q := by rw [bitLength, bitLength, hl]
  have hf : ∀ n, storageFrame ft c n p = storageFrame ft c n q := fun n => by rw [storageFrame, storageFrame, hs]
  simp only [frameTypeResult]
  cases rom v ft with
  | none => rfl
  | some n => simp only [hb, hf]

/-- The transcoder reads no stream bit before bit 5 (R47). -/
theorem transcode_congr (v : Variant) {p q : List Byte} (hl : p.length = q.length)
    (h : ∀ i, 5 ≤ i → pbit p i = pbit q i) : transcode v p = transcode v q := by
  have hft : payloadFrameType p = payloadFrameType q := by
    rw [payloadFrameType, payloadFrameType, field_congr fun i hi _ => h i hi]
  have hq : payloadQuality p = payloadQuality q := by
    rw [payloadQuality, payloadQuality, h 9 (by decide)]
  have hs : ∀ n, speechBits p n = speechBits q n := fun n => speechBits_congr fun i hi _ => h i (by omega)
  rw [transcode, transcode, bitLength, bitLength, hl, hft, hq, frameTypeResult_congr v _ _ hl hs]

/-! ### The storage header byte and the response word -/

/-- The fields of the storage header byte (R48). -/
theorem headerByte_layout (ft : BitVec 4) (q : BitVec 1) :
    headerByte ft q = BitVec.ofNat 8 (ft.toNat <<< 3 ||| q.toNat <<< 2) ∧
      (headerByte ft q).extractLsb' 7 1 = 0#1 ∧ headerFrameType (headerByte ft q) = ft ∧
      (headerByte ft q).extractLsb' 2 1 = q ∧ (headerByte ft q).extractLsb' 0 2 = 0#2 := by
  revert ft q
  decide

/-- The fields of the response word: DATA is the lowest, and each round above it passes over the field below (R58). -/
theorem responseWord_fields (st : Status) (data : Nat) :
    (responseWord st data).extractLsb' 12 4 = st.code ∧ (responseWord st data).extractLsb' 9 3 = 0#3 ∧
      (responseWord st data).extractLsb' 0 9 = BitVec.ofNat 9 data := by
  refine ⟨?_, ?_, BitVec.extractLsb'_append_eq_right⟩
  all_goals refine (BitVec.extractLsb'_append_eq_of_le (by decide)).trans ?_
  · exact BitVec.extractLsb'_append_eq_left
  · exact BitVec.extractLsb'_append_eq_right

/-! ### The end of an accepted payload's command, field by field -/

/-- TRANSCODE of an accepted payload: the response word and the frame are sent, and nothing else changes (R60, R82). -/
theorem finish_transcode_eq {f : List Byte} (s : State) (hf : f.length < 256) :
    s.finish .transcode (.accepted f) =
      { s with
        datapath := none, lastStatus := .ok
        responses := s.responses ++ [0x00, BitVec.ofNat 8 f.length] ++ f } := by
  simp only [finish_transcode, State.respond, State.sendBytes, wordBytes_responseWord_ok hf]

/-- SUBMIT of an accepted payload whose append the sink accepts (R86, R87). -/
theorem finish_submit_ok_eq {f : List Byte} {s : State} (hf : f.length < 256) (ha : s.nextAnswer = .ok) :
    s.finish .submit (.accepted f) =
      { s with
        datapath := none, lastStatus := .ok, responses := s.responses ++ [0x00, BitVec.ofNat 8 f.length]
        out := s.out ++ f, sinkFile := s.sinkFile ++ f
        sinkScript := s.sinkScript.tail, sinkDraws := s.sinkDraws + 1 } := by
  rw [finish_submit, appendFrame_of_ok (s := { s with datapath := none }) ha]
  simp only [State.respond, State.appendOk, wordBytes_responseWord_ok hf, Bool.false_eq_true, if_false]

/-- SUBMIT of an accepted payload whose append the sink fails after `k` bytes (R34, R97). -/
theorem finish_submit_fail_eq {k : Nat} (f : List Byte) {s : State} (ha : s.nextAnswer = .fail k) :
    s.finish .submit (.accepted f) =
      { s with
        datapath := none, phase := .halted, haltCause := .sinkUnavailable, lastStatus := .sinkUnavailable
        responses := s.responses ++ [0x40, 0x00], out := s.out ++ f.take k
        sinkFile := Config.sinkFileAfterFailure s.sinkDraws
        sinkScript := s.sinkScript.tail, sinkDraws := s.sinkDraws + 1 } := by
  rw [finish_submit, appendFrame_of_fail (s := { s with datapath := none }) ha]
  rfl

/-! ### The accepted rows of the frame table -/

/-- The row R49 lists for a variant and a frame type is the opcode table's row for them. -/
theorem row_of_frameRow {v : Variant} {ft : BitVec 4} {r : FrameRow} (h : frameRow v ft = some r) :
    r.row = frameTypeRow v ft := by
  obtain ⟨⟨n, hn⟩⟩ := ft
  simp only [Nat.reducePow] at hn
  cases v <;> interval_cases n <;> cases h <;> rfl

/-- A listed row is the row of a variant and a frame type (R49). -/
theorem exists_frameRow_of_mem {r : FrameRow} (h : r ∈ nbFrameRows ++ wbFrameRows) : ∃ v ft, frameRow v ft = some r := by
  obtain h | h := List.mem_append.mp h
  · obtain ⟨k, hk, hr⟩ := List.mem_iff_getElem.mp h
    refine ⟨.nb, BitVec.ofNat 4 k, ?_⟩
    have : k < 9 := hk
    simp [frameRow, Nat.mod_eq_of_lt (show k < 16 by omega), hr, hk]
  · obtain ⟨k, hk, hr⟩ := List.mem_iff_getElem.mp h
    refine ⟨.wb, BitVec.ofNat 4 k, ?_⟩
    have : k < 10 := hk
    simp [frameRow, Nat.mod_eq_of_lt (show k < 16 by omega), hr, hk]

/-- The codec ROM holds the bit count of a listed row (R49, R66). -/
theorem rom_of_frameRow {v : Variant} {ft : BitVec 4} {r : FrameRow} (h : frameRow v ft = some r) :
    rom v ft = some r.bits := by
  rw [rom_eq_frameRow, h, Option.map_some]

/-- A listed row run on a payload of its minimum length ends the command with its storage frame (R49, R79). -/
theorem exec_of_frameRow {v : Variant} {ft : BitVec 4} {r : FrameRow} (hr : frameRow v ft = some r) (h : FrameHeader)
    {s : State} {d : Datapath} (hd : s.datapath = some d) (hl : r.minPayload ≤ d.payload.length) :
    exec (r.row h) s = .next (s.finish d.client (.accepted (storageFrame ft h.q r.bits d.payload))) := by
  obtain ⟨-, -, hmin, -⟩ := frameRow_columns hr
  have hlong : ¬ bitLength d.payload < 10 + r.bits := by simp only [bitLength]; omega
  rw [row_of_frameRow hr, exec_frameTypeRow, runFrameType_of_some hd]
  simp only [frameTypeResult, rom_of_frameRow hr, if_neg hlong]

/-- The storage frame of a listed row, by the columns of R49: its header byte with Q, its pad bits, its number of bytes. -/
theorem storageFrame_of_frameRow {v : Variant} {ft : BitVec 4} {r : FrameRow} (hr : frameRow v ft = some r)
    (q : BitVec 1) (p : List Byte) :
    storageFrame ft q r.bits p =
        (r.header ||| q.setWidth 8 <<< 2) :: pack (speechBits p r.bits ++ List.replicate r.pad false) ∧
      (storageFrame ft q r.bits p).length = r.frameBytes ∧ r.frameBytes < 256 := by
  obtain ⟨hpad, hbytes, -, hheader⟩ := frameRow_columns hr
  obtain ⟨-, hbits⟩ := rom_bounds (rom_of_frameRow hr)
  rw [storageFrame_length, hbytes, speechBytes, storageFrame, hheader, hpad]
  exact ⟨rfl, rfl, by omega⟩

/-! ### The obligations -/

/-- Settles O10: each command's word spells it, and a payload that fits LEN is read whole. -/
theorem decodeOfEncodedCommand : Obligations.DecodeOfEncodedCommand := by
  intro i rest hi hwf
  cases i <;> simp only [Instr.isCommand, Bool.false_eq_true] at hi
  case beginRun v => exact decode_of_wordCommand (takesPayload_commandWord ..) (commandOf_begin v [])
  case submit p => exact decode_of_payloadCommand (takesPayload_commandWord ..) hwf (commandOf_submit p)
  case lookup v ft => exact decode_of_wordCommand (takesPayload_commandWord ..) (commandOf_lookup v ft [])
  case transcode v p => exact decode_of_payloadCommand (takesPayload_commandWord ..) hwf (commandOf_transcode v p)
  case status => exact decode_of_wordCommand (takesPayload_commandWord ..) (commandOf_status [])

/-- Settles O11: the word, and the length word and payload where there are some, are the ones the command encodes to. -/
theorem encodeOfDecodedCommand : Obligations.EncodeOfDecodedCommand := by
  intro bytes i rest h
  refine ⟨decode_isCommand h, ?_⟩
  obtain ⟨cw, p, hc, ⟨hp, -, rfl⟩ | ⟨hp, len, hlen, rfl⟩⟩ := decode_cases h
  · obtain ⟨hwf, henc⟩ := encode_of_wordCommand hp hc
    exact ⟨hwf, by rw [henc]⟩
  · obtain ⟨hwf, henc⟩ := encode_of_payloadCommand hp hc
    obtain ⟨hfit, rfl⟩ := payloadFits_of_length hlen
    exact ⟨hwf.trans hfit, by rw [henc]⟩

/-- Settles O7: the table's masks are R55's fields, and the decoder and the step go by those. -/
theorem illegalWordsAreRejectedWithoutEffect : Obligations.IllegalWordsAreRejectedWithoutEffect := by
  refine ⟨fun cw len p rest hl hlen => ?_, fun s cw rest hd hl => ?_⟩
  all_goals rw [tableLegal_iff] at hl; rw [hasPayload_iff, Bool.not_eq_true]
  · refine ⟨fun hp => ?_, fun hp => ?_⟩
    · obtain ⟨i, -, hi⟩ := fetchedCommand_legal (p := []) (rest := rest) hl
      exact ⟨i, (decode_wordCommand hp).trans hi⟩
    · obtain ⟨i, -, hi⟩ := fetchedCommand_legal (p := p) (rest := rest) hl
      exact ⟨i, (decode_payloadCommand hp hlen).trans hi⟩
  · rw [Bool.not_eq_true] at hl
    refine ⟨fun hp hin => ?_, fun len p hp hlen hin => ?_⟩
    · exact step_of_illegal hd (hin ▸ (decode_wordCommand hp).trans (fetchedCommand_illegal hl))
    · exact step_of_illegal hd (hin ▸ (decode_payloadCommand hp hlen).trans (fetchedCommand_illegal hl))

/-- Settles O8: how many bytes the decoder takes is told by OP and LEN, and the command run leaves the rest. -/
theorem payloadIsAlwaysConsumed : Obligations.PayloadIsAlwaysConsumed := by
  intro s cw rest hd
  rw [hasPayload_iff, Bool.not_eq_true]
  refine ⟨fun len p hp hlen hin => ?_, fun hp hin => ?_⟩
  · exact step_consumes hd (hin ▸ decode_payloadCommand hp hlen)
  · exact step_consumes hd (hin ▸ decode_wordCommand hp)

/-- Settles O12: a frame-type row is a variant, a frame type and the header's other fields, and so is its header word. -/
theorem frameTypeRowsRoundTrip : Obligations.FrameTypeRowsRoundTrip := by
  refine ⟨fun i hi => ?_, fun v b0 b1 rest i h => ?_⟩
  · obtain ⟨v, ft, h, rfl⟩ := exists_frameTypeRow hi
    refine ⟨v, fun rest => ?_⟩
    rw [encode_frameTypeRow, decodeHeader_wordBytes, hwFrameType_headerWord, hwHeader_headerWord]
  · cases h
    refine ⟨frameTypeRow_isCommand .., ?_⟩
    rw [encode_frameTypeRow, headerWord_of_fields, wordBytes_wordOfBytes]

/-- Settles O13: stream bit `i` of the header is bit 15 - i of HW, so each stream field is a field of HW. -/
theorem headerWordHoldsTheHeaderFields : Obligations.HeaderWordHoldsTheHeaderFields := by
  intro b0 b1 rest
  have hft : payloadFrameType (b0 :: b1 :: rest) = hwFrameType (wordOfBytes b0 b1) :=
    field_eq_extractLsb' b0 b1 rest (by decide)
  refine ⟨field_eq_extractLsb' b0 b1 rest (by decide), pbit_eq_extractLsb' b0 b1 rest (by decide), hft,
    pbit_eq_extractLsb' b0 b1 rest (by decide), fun k hk => ?_, ?_⟩
  · rw [pbit_wordOfBytes _ _ _ (by omega), show 15 - (10 + k) = 5 - k by omega]
  · rw [hft, and_frameTypeMask]

/-- Settles O22: the transcoder reads no stream bit of CMR or the reserved bit. -/
theorem cmrAndReservedBitAreIgnored : Obligations.CmrAndReservedBitAreIgnored := by
  intro v p q hl h
  exact transcode_congr v hl h

/-- Settles O29: a listed row's result is its storage frame by R49's columns, and the command ends with that frame. -/
theorem acceptedFrameTypeRowsComplete : Obligations.AcceptedFrameTypeRowsComplete := by
  intro r hr h s d f hd hl hf
  obtain ⟨v, ft, hrow⟩ := exists_frameRow_of_mem hr
  obtain ⟨hframe, hlen, hbytes⟩ := storageFrame_of_frameRow hrow h.q d.payload
  have hexec := exec_of_frameRow hrow h hd hl
  rw [hframe.trans hf.symm] at hlen hexec
  rw [hexec, ← hlen]
  rw [← hlen] at hbytes
  refine ⟨rfl, fun hc => ?_, fun hc ha => ?_, fun k hc ha => ?_⟩
  · rw [hc, finish_transcode_eq s hbytes]
  · rw [hc, finish_submit_ok_eq hbytes ha]
  · exact ⟨_, by rw [hc, finish_submit_fail_eq f ha]⟩

/-- Settles O5: the step's own case for a payload in the datapath. -/
theorem stepRunsTheDecodedFrameType : Obligations.StepRunsTheDecodedFrameType := by
  intro s d i hd h
  exact step_of_header hd h

/-- Settles O9: the decoders run on the written-out words. -/
theorem writtenOutWordsDecode : Obligations.WrittenOutWordsDecode := by
  unfold Obligations.WrittenOutWordsDecode
  decide

/-- Settles O14: the header byte's fields, for every frame type and Q. -/
theorem headerByteLayout : Obligations.HeaderByteLayout :=
  ⟨rfl, headerByte_layout⟩

/-- Settles O16: the three fields of the response word; a DATA of at most 477 fits its 9 bits. -/
theorem responseWordLayout : Obligations.ResponseWordLayout := by
  intro st data hdata
  obtain ⟨hstatus, hzero, hdata9⟩ := responseWord_fields st data
  rw [hstatus, hdata9, BitVec.toNat_ofNat]
  exact ⟨rfl, fun c hc h => by rw [h, code_of_mem_statusCodes c hc], hzero, Nat.mod_eq_of_lt (by omega)⟩

end Sys2Proof.Machine

/-! The codec table, 41_codec_table.md: what the ROM holds (R66), and LOOKUP, which reads it (R68). -/

namespace Sys2Proof.Machine

/-! ### The codec ROM -/

/-- A table read is the listed entry up to the table's last index, and absent past it (R66). -/
theorem getElem?_eq_ite_getD {table : List Nat} {last : Nat} (h : table.length = last + 1) (i : Nat) :
    table[i]? = if i ≤ last then some (table.getD i 0) else none := by
  split
  case isTrue hi =>
    have hlt : i < table.length := by omega
    rw [List.getElem?_eq_getElem hlt, List.getD_eq_getElem _ _ hlt]
  case isFalse hi => exact List.getElem?_eq_none (by omega)

/-! ### LOOKUP, by what the ROM holds -/

/-- LOOKUP of a code that names no variant is INVALID_VARIANT, without the halt (R68). -/
theorem exec_lookup_of_invalid {v : BitVec 2} (ft : BitVec 4) (s : State) (h : variantOf v = none) :
    exec (.lookup v ft) s = .next (s.respond .invalidVariant 0) := by
  simp only [exec, execLookup, h]

/-- LOOKUP of a frame type that the ROM has is OK with the entry as DATA (R68). -/
theorem exec_lookup_of_entry {x : Variant} {ft : BitVec 4} {n : Nat} (s : State) (h : rom x ft = some n) :
    exec (.lookup (variantCode x) ft) s = .next (s.respond .ok n) := by
  simp only [exec, execLookup, variantOf_variantCode, h]

/-- LOOKUP of a frame type that the ROM lacks is SKIPPED (R68). -/
theorem exec_lookup_of_absent {x : Variant} {ft : BitVec 4} (s : State) (h : rom x ft = none) :
    exec (.lookup (variantCode x) ft) s = .next (s.respond .skipped 0) := by
  simp only [exec, execLookup, variantOf_variantCode, h]

/-! ### The illegal LOOKUP word -/

/-- The mask 0x03F0 selects the reserved field RSV (R53). -/
theorem and_reservedMask_eq_zero_iff (cw : Word) : cw &&& 0x03F0#16 = 0#16 ↔ cwReserved cw = 0#6 := by
  rw [masked_eq_iff]
  simp [cwOp, cwVariant, cwReserved, cwFrameType, (and_ones 0 (cw.extractLsb' 4 6)).2]

/-- A LOOKUP word carries no payload, and is legal exactly when its reserved field is 0 (R55, R56). -/
theorem lookupWord_of_op {cw : Word} (h : cwOp cw = 0x3#4) :
    takesPayload cw = false ∧ legalCommand cw = (cwReserved cw == 0#6) := by
  simp [takesPayload, legalCommand, h]

/-- A step at an illegal one-word command consumes the word and has R55's effect (R55, R56). -/
theorem step_of_illegal_wordCommand {s : State} {cw : Word} {rest : List Byte} (hd : s.datapath = none)
    (hp : takesPayload cw = false) (hl : legalCommand cw = false) (hin : s.input = wordBytes cw ++ rest) :
    step s = .next (s.advance rest).illegalCommand :=
  step_of_illegal hd (hin ▸ (decode_wordCommand hp).trans (fetchedCommand_illegal hl))

/-! ### The obligations -/

/-- Settles O26: LOOKUP by what the ROM holds, each entry below 512 so that the response word is the entry itself. -/
theorem lookupReadsTheRom : Obligations.LookupReadsTheRom := by
  intro s v ft
  refine ⟨fun hv => ?_, ?_, ?_, fun cw rest hop hrsv hd hin => ?_⟩
  · exact exec_lookup_of_invalid ft s (variantOf_eq_none.mpr hv)
  · rintro x n rfl hn
    obtain ⟨-, hmax⟩ := rom_bounds hn
    rw [exec_lookup_of_entry s hn, State.respond, responseWord_ok (by omega)]
  · rintro x rfl hn
    exact exec_lookup_of_absent s hn
  · obtain ⟨hp, hlegal⟩ := lookupWord_of_op (cwOp_of_masked hop)
    have hne : cwReserved cw ≠ 0#6 := mt (and_reservedMask_eq_zero_iff cw).mpr hrsv
    exact step_of_illegal_wordCommand hd hp (hlegal.trans (beq_false_of_ne hne)) hin

/-- Settles O17: each variant's ROM is its table, of nine entries for NarrowBand and ten for WideBand. -/
theorem codecRomContents : Obligations.CodecRomContents := by
  intro ft
  have hnb : nbTable.length = 8 + 1 := rfl
  have hwb : wbTable.length = 9 + 1 := rfl
  exact ⟨getElem?_eq_ite_getD hnb ft.toNat, getElem?_eq_ite_getD hwb ft.toNat⟩

end Sys2Proof.Machine

/-! The frame transcoder, 42_frame_transcoder.md: the order of its checks (R81), the frame it makes and the byte form of its
extractor and aligner (R75 to R78), the stream bits that matter to it (R80), the frame-type rows that run it (R73, R74, R79), and
TRANSCODE (R82). -/

namespace Sys2Proof.Machine

open Sys2Proof Sys2Proof.Safety

/-! ### The checks, one by one -/

/-- A payload with no whole header word fails (R71). -/
theorem transcode_of_short {v : Variant} {p : List Byte} (h : p.length < 2) : transcode v p = .failed := by
  rw [transcode, if_pos (by simp only [bitLength]; omega)]

/-- A frame type with no table entry is skipped, whatever the payload's length (R73). -/
theorem frameTypeResult_of_absent {v : Variant} {ft : BitVec 4} (h : rom v ft = none) (q : BitVec 1) (p : List Byte) :
    frameTypeResult v ft q p = .skipped := by
  simp only [frameTypeResult, h]

/-- A payload whose speech bits are not all there fails (R74). -/
theorem frameTypeResult_of_few {v : Variant} {ft : BitVec 4} {n : Nat} (h : rom v ft = some n) (q : BitVec 1)
    {p : List Byte} (hl : bitLength p < 10 + n) : frameTypeResult v ft q p = .failed := by
  simp only [frameTypeResult, h, if_pos hl]

/-! ### The aligned speech bits -/

/-- Stream bit `i` of the packed and padded speech bits is speech bit `i`, and zero in the pad (R76, R79). -/
theorem pbit_pack_speechBits (p : List Byte) {n i : Nat} (h : i < 8 * speechBytes n) :
    pbit (pack (speechBits p n ++ List.replicate (padBits n) false)) i = (decide (i < n) && pbit p (10 + i)) := by
  have hpad := add_padBits n
  rw [pbit_pack (by simp only [List.length_append, speechBits_length, List.length_replicate]; omega)]
  by_cases hi : i < n
  · rw [List.getD_append _ _ _ _ (by rwa [speechBits_length])]
    simp [speechBits, hi]
  · rw [List.getD_append_right _ _ _ _ (by rw [speechBits_length]; omega), List.getD_eq_getElem?_getD,
      List.getElem?_getD_replicate_default_eq]
    simp [hi]

/-- Bit 7 - m of the barrel shifter's byte `j` is the stream bit ten places after bit 8j + m: six from one byte of the payload,
two from the next (R75). -/
theorem shiftedByte_getLsbD (p : List Byte) (j : Nat) {m : Nat} (h : m < 8) :
    (shiftedByte p j).getLsbD (7 - m) = pbit p (10 + (8 * j + m)) := by
  simp only [shiftedByte, paddedByte, BitVec.getLsbD_or, BitVec.getLsbD_shiftLeft, BitVec.getLsbD_ushiftRight, pbit]
  by_cases hm : m < 6
  · rw [show (10 + (8 * j + m)) / 8 = j + 1 by omega, show 7 - (10 + (8 * j + m)) % 8 = 7 - m - 2 by omega,
      BitVec.getLsbD_of_ge _ (6 + (7 - m)) (by omega)]
    simp [show 7 - m < 8 by omega, show ¬ 7 - m < 2 by omega]
  · rw [show (10 + (8 * j + m)) / 8 = j + 2 by omega, show 7 - (10 + (8 * j + m)) % 8 = 6 + (7 - m) by omega]
    simp [show 7 - m < 2 by omega]

/-- The aligner's mask clears the low `k` bits and keeps the others (R76). -/
theorem alignerMask_getLsbD (k : Nat) {m : Nat} (h : m < 8) :
    (0xFF#8 <<< k).getLsbD (7 - m) = decide (m + k < 8) := by
  have ones : 0xFF#8 = BitVec.allOnes 8 := rfl
  rw [BitVec.getLsbD_shiftLeft, ones, BitVec.getLsbD_allOnes, Bool.eq_iff_iff]
  simp only [Bool.and_eq_true, Bool.not_eq_true', decide_eq_true_eq, decide_eq_false_iff_not]
  omega

/-- Stream bit `i` of the aligned bytes is speech bit `i`, and zero in the pad (R75, R76). -/
theorem pbit_alignedSpeech (p : List Byte) {n i : Nat} (h : i < 8 * speechBytes n) :
    pbit (alignedSpeech p n) i = (decide (i < n) && pbit p (10 + i)) := by
  have hpad := add_padBits n
  have hj : i / 8 < speechBytes n := by omega
  have hm : i % 8 < 8 := Nat.mod_lt _ (by decide)
  have hshift : (shiftedByte p (i / 8)).getLsbD (7 - i % 8) = pbit p (10 + i) := by
    rw [shiftedByte_getLsbD p _ hm, Nat.div_add_mod]
  rw [pbit]
  simp only [alignedSpeech, List.getD_eq_getElem?_getD, List.getElem?_map, List.getElem?_range hj, Option.map_some,
    Option.getD_some]
  split
  · next hlast =>
    have hmask : i % 8 + padBits n < 8 ↔ i < n := by omega
    rw [BitVec.getLsbD_and, hshift, alignerMask_getLsbD _ hm, decide_eq_decide.mpr hmask, Bool.and_comm]
  · next hlast =>
    have hi : i < n := by simp only [speechBytes] at hj hlast; omega
    simp [hshift, hi]

/-- The octet aligner's bytes are the packed and padded speech bits: they have the same stream bits (R76). -/
theorem alignedSpeech_eq_pack (p : List Byte) (n : Nat) :
    alignedSpeech p n = pack (speechBits p n ++ List.replicate (padBits n) false) := by
  have hlen : (alignedSpeech p n).length = speechBytes n := by simp [alignedSpeech]
  apply eq_of_pbit_eq
  · rw [hlen, pack_length, List.length_append, speechBits_length, List.length_replicate, add_padBits]
    omega
  · intro i hi
    rw [bitLength, hlen] at hi
    rw [pbit_alignedSpeech p hi, pbit_pack_speechBits p hi]

/-! ### The stream bits that matter -/

/-- FT and Q are read from stream bits [5, 10) (R43, R72). -/
theorem headerFields_congr {p q : List Byte} (h : ∀ i, 5 ≤ i → i < 10 → pbit q i = pbit p i) :
    payloadFrameType q = payloadFrameType p ∧ payloadQuality q = payloadQuality p := by
  refine ⟨?_, by rw [payloadQuality, payloadQuality, h 9 (by decide) (by decide)]⟩
  rw [payloadFrameType, payloadFrameType, field_congr fun i h5 h9 => h i h5 (by omega)]

/-- Payloads with enough bits that agree on stream bits [5, 10+n) have the same outcome (R80). -/
theorem transcode_eq_of_pbit_eq {v : Variant} {p q : List Byte} {n : Nat} (hn : rom v (payloadFrameType p) = some n)
    (hp : 10 + n ≤ bitLength p) (hq : 10 + n ≤ bitLength q)
    (h : ∀ i, 5 ≤ i → i < 10 + n → pbit q i = pbit p i) : transcode v q = transcode v p := by
  obtain ⟨hft, hquality⟩ := headerFields_congr fun i h5 h10 => h i h5 (by omega)
  have hspeech : speechBits q n = speechBits p n := speechBits_congr fun i h10 hi => h i (by omega) hi
  rw [transcode_of_enough hn hp, transcode_of_enough (hft ▸ hn) hq, storageFrame, storageFrame, hft, hquality, hspeech]

/-- The first bytes of a payload, where they hold all the bits its frame type asks for, have its outcome (R80). -/
theorem transcode_take_of_enough {v : Variant} {p : List Byte} {n k : Nat} (hn : rom v (payloadFrameType p) = some n)
    (hp : 10 + n ≤ bitLength p) (hk : 10 + n ≤ 8 * k) : transcode v (p.take k) = transcode v p := by
  refine transcode_eq_of_pbit_eq hn hp ?_ fun i _ hi => pbit_take (by omega)
  simp only [bitLength, List.length_take] at hp ⊢
  omega

/-- The first 61 bytes decide the outcome: the largest table entry needs no more (R80, R83). -/
theorem transcode_take_61 (v : Variant) (p : List Byte) : transcode v (p.take 61) = transcode v p := by
  by_cases hlen : p.length ≤ 61
  · rw [List.take_of_length_le hlen]
  cases hn : rom v (payloadFrameType p) with
  | none =>
    obtain ⟨hft, -⟩ := headerFields_congr (p := p) (q := p.take 61) fun i _ hi => pbit_take (by omega)
    rw [transcode_of_long (by rw [List.length_take]; omega), transcode_of_long (by omega), hft,
      frameTypeResult_of_absent hn, frameTypeResult_of_absent hn]
  | some n =>
    obtain ⟨-, hmax⟩ := rom_bounds hn
    exact transcode_take_of_enough hn (by rw [bitLength]; omega) (by omega)

/-! ### The end of a dropped payload's command, field by field -/

/-- A skipped payload: the response word 0x1000 is sent and nothing is appended (R73, R88). -/
theorem finish_skipped_eq (c : Client) (s : State) :
    s.finish c .skipped =
      { s with datapath := none, lastStatus := .skipped, responses := s.responses ++ [0x10, 0x00] } := rfl

/-- A failed payload: the response word 0x2000 is sent and nothing is appended (R71, R74, R88). -/
theorem finish_failed_eq (c : Client) (s : State) :
    s.finish c .failed =
      { s with datapath := none, lastStatus := .failed, responses := s.responses ++ [0x20, 0x00] } := rfl

/-! ### The frame-type rows -/

/-- A listed row run on a payload below its minimum length ends the command FAILED (R49, R74). -/
theorem exec_of_frameRow_of_short {v : Variant} {ft : BitVec 4} {r : FrameRow} (hr : frameRow v ft = some r)
    (h : FrameHeader) {s : State} {d : Datapath} (hd : s.datapath = some d) (hl : d.payload.length < r.minPayload) :
    exec (r.row h) s = .next (s.finish d.client .failed) := by
  obtain ⟨-, -, hmin, -⟩ := frameRow_columns hr
  have hfew : bitLength d.payload < 10 + r.bits := by simp only [bitLength]; omega
  rw [row_of_frameRow hr, exec_frameTypeRow, runFrameType_of_some hd,
    frameTypeResult_of_few (rom_of_frameRow hr) _ hfew]

/-- A row of R73's list is the row of a variant and a frame type that the ROM lacks (R46, R73). -/
theorem exists_absent_of_mem_skippedRows :
    ∀ row ∈ skippedRows, ∃ v ft, row = frameTypeRow v ft ∧ rom v ft = none := by
  simp only [skippedRows, List.forall_mem_cons]
  exact ⟨⟨.nb, 9, rfl, rfl⟩, ⟨.nb, 10, rfl, rfl⟩, ⟨.nb, 11, rfl, rfl⟩, ⟨.nb, 12, rfl, rfl⟩, ⟨.nb, 13, rfl, rfl⟩,
    ⟨.nb, 14, rfl, rfl⟩, ⟨.nb, 15, rfl, rfl⟩, ⟨.wb, 10, rfl, rfl⟩, ⟨.wb, 11, rfl, rfl⟩, ⟨.wb, 12, rfl, rfl⟩,
    ⟨.wb, 13, rfl, rfl⟩, ⟨.wb, 14, rfl, rfl⟩, ⟨.wb, 15, rfl, rfl⟩, List.forall_mem_nil _⟩

/-- The row of a payload's own header word ends the payload's command with the transcoder's result: the row's frame type and Q
are those of the stream (R43, R45, R79). -/
theorem exec_of_decodeHeader {s : State} {d : Datapath} {i : Instr} (hd : s.datapath = some d)
    (h : decodeHeader d.variant d.payload = some i) :
    exec i s = .next (s.finish d.client (transcode d.variant d.payload)) := by
  obtain ⟨b0, b1, rest, hp, rfl⟩ := decodeHeader_cases h
  have hft : payloadFrameType d.payload = hwFrameType (wordOfBytes b0 b1) :=
    hp ▸ field_eq_extractLsb' b0 b1 rest (by decide)
  have hq : payloadQuality d.payload = (hwHeader (wordOfBytes b0 b1)).q :=
    hp ▸ pbit_eq_extractLsb' b0 b1 rest (by decide)
  rw [exec_frameTypeRow, runFrameType_of_some hd, transcode_of_long (by simp [hp]), hft, hq]

/-! ### TRANSCODE -/

/-- TRANSCODE of a code that names no variant is INVALID_VARIANT, without the halt (R82). -/
theorem exec_transcode_of_invalid {v : BitVec 2} (p : List Byte) (s : State) (h : variantOf v = none) :
    exec (.transcode v p) s = .next (s.respond .invalidVariant 0) := by
  simp only [exec, execTranscode, h]

/-- TRANSCODE with a valid variant ends its payload command with the transcoder's result (R82). -/
theorem exec_transcode (x : Variant) (p : List Byte) (s : State) :
    exec (.transcode (variantCode x) p) s = .next (s.finish .transcode (transcode x p)) := by
  simp only [exec, execTranscode, variantOf_variantCode, runDatapath_loadPayload]

/-- The mask 0x03FF selects the fields RSV and FTQ (R53). -/
theorem and_reservedFrameTypeMask_eq_zero_iff (cw : Word) :
    cw &&& 0x03FF#16 = 0#16 ↔ cwReserved cw = 0#6 ∧ cwFrameType cw = 0#4 := by
  rw [masked_eq_iff]
  simp [cwOp, cwVariant, cwReserved, cwFrameType, (and_ones (cw.extractLsb' 0 4) (cw.extractLsb' 4 6)).1,
    (and_ones (cw.extractLsb' 0 4) (cw.extractLsb' 4 6)).2]

/-- A TRANSCODE word carries a payload, and is legal exactly when RSV and FTQ are 0 (R55, R56). -/
theorem transcodeWord_of_op {cw : Word} (h : cwOp cw = 0x4#4) :
    takesPayload cw = true ∧ legalCommand cw = (cwReserved cw == 0#6 && cwFrameType cw == 0#4) := by
  simp [takesPayload, legalCommand, h]

/-- A step at an illegal payload command consumes its word, LEN and payload and has R55's effect (R55, R56). -/
theorem step_of_illegal_payloadCommand {s : State} {cw len : Word} {p rest : List Byte} (hd : s.datapath = none)
    (hp : takesPayload cw = true) (hl : legalCommand cw = false) (hlen : p.length = len.toNat)
    (hin : s.input = wordBytes cw ++ wordBytes len ++ p ++ rest) :
    step s = .next (s.advance rest).illegalCommand :=
  step_of_illegal hd (hin ▸ (decode_payloadCommand hp hlen).trans (fetchedCommand_illegal hl))

/-! ### The obligations -/

/-- Settles O18: each check decides alone; every table entry has at least 39 bits, so two bytes are never enough. -/
theorem transcoderOrderOfChecks : Obligations.TranscoderOrderOfChecks := by
  intro v p
  refine ⟨transcode_of_short, fun hl hn => ?_, fun n hl hn => ?_⟩
  · rw [transcode_of_long hl, frameTypeResult_of_absent hn]
  obtain ⟨hmin, -⟩ := rom_bounds hn
  have few : bitLength p < 10 + n → transcode v p = .failed := fun h => by
    rw [transcode_of_long hl, frameTypeResult_of_few hn _ h]
  refine ⟨fun h => few ?_, fun h => few ?_, fun h => transcode_of_enough hn ?_⟩
  all_goals rw [bitLength]; omega

/-- Settles O19: the accepted frame is a header byte and the packed speech bits, which the aligned bytes are. -/
theorem acceptedFrameIsAStorageFrame : Obligations.AcceptedFrameIsAStorageFrame := by
  intro v p f h
  obtain ⟨n, hn, -, rfl⟩ := transcode_accepted h
  obtain ⟨-, -, hft, hq, -⟩ := headerByte_layout (payloadFrameType p) (payloadQuality p)
  refine ⟨n, _, hn, ?_, storageFrame_length .., hft, hq, isStorageFrame_of_accepted h⟩
  rw [storageFrame, alignedSpeech_eq_pack]

/-- Settles O20: the frame's stream bits after the header byte are the packed speech bits. -/
theorem speechBitsAreCopiedVerbatim : Obligations.SpeechBitsAreCopiedVerbatim := by
  intro v p f n h hn
  obtain ⟨n', hn', -, rfl⟩ := transcode_accepted h
  obtain rfl : n = n' := Option.some.inj (hn.symm.trans hn')
  have hpad := add_padBits n
  refine ⟨fun k hk => ?_, fun i hi hlt => ?_⟩
  · rw [storageFrame, pbit_tail, pbit_pack_speechBits p (by omega)]
    simp [hk]
  · obtain ⟨k, rfl⟩ : ∃ k, i = 8 + k := ⟨i - 8, by omega⟩
    rw [bitLength, storageFrame_length] at hlt
    rw [storageFrame, pbit_tail, pbit_pack_speechBits p (by rw [speechBytes]; omega)]
    simp [show ¬ k < n by omega]

/-- Settles O21: the shifter bit by bit, and the aligner's bytes by their stream bits. -/
theorem byteShifterEqualsBitPacking : Obligations.ByteShifterEqualsBitPacking := by
  intro p n
  exact ⟨fun j m hm _ => shiftedByte_getLsbD p j hm, by rw [padBits]; omega, alignedSpeech_eq_pack p n⟩

/-- Settles O23: the transcoder reads FT, Q and the speech bits, and 61 bytes hold those of every frame type. -/
theorem onlyHeaderAndSpeechBitsMatter : Obligations.OnlyHeaderAndSpeechBitsMatter := by
  refine ⟨fun v p f n hn h => ?_, transcode_take_61⟩
  obtain ⟨n', hn', hp, -⟩ := transcode_accepted h
  obtain rfl : n = n' := Option.some.inj (hn.symm.trans hn')
  refine ⟨fun q hq hbits => ?_, ?_⟩
  · rw [transcode_eq_of_pbit_eq hn hp hq hbits, h]
  · rw [transcode_take_of_enough hn hp (by omega), h]

/-- Settles O27: an invalid code is answered, a valid one ends with the transcoder's result, and an illegal word is consumed. -/
theorem transcodeAnswersTheFrame : Obligations.TranscodeAnswersTheFrame := by
  intro s v p
  refine ⟨fun hv => ?_, ?_, ?_, ?_, fun cw len q rest hop hfields hd hlen hin => ?_⟩
  · exact exec_transcode_of_invalid p s (variantOf_eq_none.mpr hv)
  · rintro x f rfl hf
    have hlen := accepted_length hf
    rw [exec_transcode, hf, finish_transcode_eq s (by omega)]
  · rintro x rfl hf
    rw [exec_transcode, hf, finish_skipped_eq]
  · rintro x rfl hf
    rw [exec_transcode, hf, finish_failed_eq]
  · obtain ⟨hp, hlegal⟩ := transcodeWord_of_op (cwOp_of_masked hop)
    rw [Ne, and_reservedFrameTypeMask_eq_zero_iff] at hfields
    have hl : legalCommand cw = false := by simpa [hlegal] using hfields
    exact step_of_illegal_payloadCommand hd hp hl hlen hin

/-- Settles O30: a listed row's minimum length is what its speech bits need. -/
theorem shortPayloadFailsInTheRow : Obligations.ShortPayloadFailsInTheRow := by
  intro r hr h s d hd hl
  obtain ⟨v, ft, hrow⟩ := exists_frameRow_of_mem hr
  rw [exec_of_frameRow_of_short hrow h hd hl, finish_failed_eq]

/-- Settles O31: the ROM has no entry for the listed rows. -/
theorem skippedFrameTypeRowsComplete : Obligations.SkippedFrameTypeRowsComplete := by
  intro row hrow h s d hd
  obtain ⟨v, ft, rfl, hn⟩ := exists_absent_of_mem_skippedRows row hrow
  rw [exec_frameTypeRow, runFrameType_of_some hd, frameTypeResult_of_absent hn, finish_skipped_eq]

/-- Settles O32: where a row is decoded it is that of the payload's own header, and otherwise the step transcodes itself. -/
theorem rowsImplementTheTranscoder : Obligations.RowsImplementTheTranscoder := by
  intro s d hd
  cases hi : decodeHeader d.variant d.payload with
  | none => simp only [step, State.runDatapath, hd, hi]
  | some i => rw [step_of_header hd hi, exec_of_decodeHeader hd hi]

/-- Settles O33: both sides end the command with the transcoder's result, which what the datapath held does not change. -/
theorem payloadCommandsRunTheirRow : Obligations.PayloadCommandsRunTheirRow := by
  refine fun s p i => ⟨fun ho hi => ?_, fun x hi => ?_⟩
  · rw [exec_submit_of_opened p ho, exec_of_decodeHeader (d := ⟨.submit, s.variant, p⟩) rfl hi]
    exact congrArg _ (finish_loadPayload .submit .submit s.variant p _ s).symm
  · rw [exec_transcode, exec_of_decodeHeader (d := ⟨.transcode, x, p⟩) rfl hi]
    exact congrArg _ (finish_loadPayload .transcode .transcode x p _ s).symm

end Sys2Proof.Machine

/-! The stream assembler, 43_stream_assembler.md: BEGIN (R84), SUBMIT (R86) and STATUS (R90) with their illegal words, the runs
they make (R89, R91), and the stream invariant (R92), which every command keeps. -/

namespace Sys2Proof.Machine

open Sys2Proof Sys2Proof.Safety

/-! ### BEGIN and SUBMIT, by phase -/

/-- BEGIN in HALTED is refused (R84, R100). -/
theorem exec_begin_of_halted {s : State} (v : BitVec 2) (h : s.phase = .halted) :
    exec (.beginRun v) s = .next (s.respond .halted 0) := by
  simp only [exec, execBegin, h]

/-- BEGIN in OPEN is out of sequence (R84). -/
theorem exec_begin_of_opened {s : State} (v : BitVec 2) (h : s.phase = .opened) :
    exec (.beginRun v) s = .next (s.respond .sequence 0) := by
  simp only [exec, execBegin, h]

/-- BEGIN in IDLE with a code that names no variant halts the run (R84, R98). -/
theorem exec_begin_of_invalid {s : State} {v : BitVec 2} (hp : s.phase = .idle) (hv : variantOf v = none) :
    exec (.beginRun v) s = .next s.haltInvalidVariant := by
  simp only [exec, execBegin, hp, hv]

/-- SUBMIT in HALTED is refused (R86, R100). -/
theorem exec_submit_of_halted {s : State} (p : List Byte) (h : s.phase = .halted) :
    exec (.submit p) s = .next (s.respond .halted 0) := by
  simp only [exec, execSubmit, h]

/-- SUBMIT in IDLE is out of sequence (R86). -/
theorem exec_submit_of_idle {s : State} (p : List Byte) (h : s.phase = .idle) :
    exec (.submit p) s = .next (s.respond .sequence 0) := by
  simp only [exec, execSubmit, h]

/-- The append of the magic header that the sink accepts opens the run (R84, R85). -/
theorem exec_begin_of_idle_of_ok {s : State} (x : Variant) (hp : s.phase = .idle) (ha : s.nextAnswer = .ok) :
    exec (.beginRun (variantCode x)) s = .next
      (({ { s with variant := x }.appendOk true (magic x) with phase := .opened }).respond .ok (magic x).length) := by
  rw [exec_begin_of_idle x hp, beginStream_of_ok ha]

/-- A BEGIN in IDLE whose append is accepted leaves the magic header in OUT and in the sink (R85, R91). -/
theorem exec_begin_leaves_magic {s : State} (x : Variant) (hp : s.phase = .idle) (hout : s.out = [])
    (ha : s.nextAnswer = .ok) :
    ∃ t, exec (.beginRun (variantCode x)) s = .next t ∧ t.phase = .opened ∧ t.variant = x ∧ t.out = magic x ∧
      t.sinkFile = magic x :=
  ⟨_, exec_begin_of_idle_of_ok x hp ha, rfl, rfl, by simp [hout], rfl⟩

/-! ### The illegal words -/

/-- A BEGIN word carries no payload, and is legal exactly when RSV and FTQ are 0 (R55, R56). -/
theorem beginWord_of_op {cw : Word} (h : cwOp cw = 0x1#4) :
    takesPayload cw = false ∧ legalCommand cw = (cwReserved cw == 0#6 && cwFrameType cw == 0#4) := by
  simp [takesPayload, legalCommand, h]

/-- A word of OP 0x2 carries a payload, and 0x2000 is the only legal one (R55, R56). -/
theorem submitWord_of_op {cw : Word} (h : cwOp cw = 0x2#4) :
    takesPayload cw = true ∧ (legalCommand cw = true ↔ cw = 0x2000#16) := by
  rw [show 0x2000#16 = commandWord 0x2#4 0 0 from rfl, word_eq_iff]
  simp [takesPayload, legalCommand, h, commandWord_fields, and_assoc]

/-- A word of OP 0x5 carries no payload, and 0x5000 is the only legal one (R55, R56). -/
theorem statusWord_of_op {cw : Word} (h : cwOp cw = 0x5#4) :
    takesPayload cw = false ∧ (legalCommand cw = true ↔ cw = 0x5000#16) := by
  rw [show 0x5000#16 = commandWord 0x5#4 0 0 from rfl, word_eq_iff]
  simp [takesPayload, legalCommand, h, commandWord_fields, and_assoc]

/-! ### Runs whose payloads are all dropped -/

/-- A SUBMIT of a dropped payload in an open run leaves the run as it is (R88). -/
theorem exec_submit_of_dropped {s : State} {p : List Byte} (ho : s.phase = .opened)
    (hp : acceptedFrame s.variant p = none) : ∃ t, exec (.submit p) s = .next t ∧ SameRun s t := by
  refine ⟨_, exec_submit_of_opened p ho, ?_⟩
  cases hr : transcode s.variant p with
  | skipped => exact ⟨rfl, rfl, rfl, rfl, rfl, rfl⟩
  | failed => exact ⟨rfl, rfl, rfl, rfl, rfl, rfl⟩
  | accepted f => simp [acceptedFrame_eq_some.mpr hr] at hp

/-- Any number of dropped payloads leave an open run as it is (R88, R91). -/
theorem runAll_dropped {payloads : List (List Byte)} {s : State} (ho : s.phase = .opened)
    (hp : ∀ p ∈ payloads, acceptedFrame s.variant p = none) :
    ∃ t, runAll (payloads.map .submit) s = .next t ∧ t.phase = .opened ∧ t.out = s.out ∧ t.sinkFile = s.sinkFile := by
  induction payloads generalizing s with
  | nil => exact ⟨s, rfl, ho, rfl, rfl⟩
  | cons p ps ih =>
    obtain ⟨hhead, htail⟩ := List.forall_mem_cons.mp hp
    obtain ⟨u, hu, kept⟩ := exec_submit_of_dropped ho hhead
    obtain ⟨t, ht, hto, hout, hfile⟩ := ih (kept.phase.trans ho) (by rwa [kept.variant])
    exact ⟨t, by simpa only [List.map_cons, runAll, hu] using ht, hto, hout.trans kept.out, hfile.trans kept.sinkFile⟩

/-! ### Storage files -/

/-- The magic header alone is a storage file (R51, R91). -/
theorem storageFile_magic (v : Variant) : StorageFile v (magic v) :=
  ⟨[], by simp, by simp⟩

/-- A storage frame appended to a storage file gives a storage file (R31, R51). -/
theorem storageFile_append {v : Variant} {file f : List Byte} (h : StorageFile v file)
    (hf : isStorageFrame v f = true) : StorageFile v (file ++ f) := by
  obtain ⟨frames, hframes, rfl⟩ := h
  refine ⟨frames ++ [f], ?_, by simp⟩
  simpa [or_imp, forall_and] using ⟨hframes, hf⟩

/-! ### The stream invariant -/

/-- The stream invariant speaks of the run's fields alone. -/
theorem SameRun.streamInv {s t : State} (kept : SameRun s t) (h : StreamInv s) : StreamInv t := by
  simpa only [StreamInv, kept.phase, kept.variant, kept.haltCause, kept.out, kept.sinkFile] using h

/-- BEGIN in IDLE leaves the magic header as an open run's file, or a cut one as a halted run's (R84, R92). -/
theorem beginStream_streamInv {s : State} (x : Variant) (hout : s.out = []) (hc : s.haltCause = .notHalted) :
    StreamInv (s.beginStream x) := by
  cases ha : s.nextAnswer with
  | ok =>
    rw [beginStream_of_ok ha]
    exact ⟨hc, by simpa [hout] using storageFile_magic x, by simp [hout]⟩
  | fail k =>
    rw [beginStream_of_fail ha]
    exact .inr ⟨rfl, .inl ⟨k, by simp [hout]⟩⟩

/-- The end of a SUBMIT in an open run leaves the file as it was, one storage frame longer, or halts it with a cut
storage frame at its end (R86, R92). -/
theorem finish_submit_streamInv {s : State} (p : List Byte) (ho : s.phase = .opened) (h : StreamInv s) :
    StreamInv (s.finish .submit (transcode s.variant p)) := by
  obtain ⟨hc, hfile, hsink⟩ : s.haltCause = .notHalted ∧ StorageFile s.variant s.out ∧ s.sinkFile = s.out := by
    simpa only [StreamInv, ho] using h
  obtain ⟨hp, hc', hout, hf, hn, -, -⟩ | ⟨f, -, hr, hp, hc', hout, hf, -⟩ | ⟨f, k, -, hr, hp, hc', hout, -⟩ :=
    finish_cases .submit (transcode s.variant p) s
  · exact SameRun.streamInv ⟨hp, State.finish_variant .., hc', hout, hf, hn⟩ h
  · simp only [StreamInv, hp, ho, hc', hc, hout, hf, hsink, State.finish_variant]
    exact ⟨trivial, storageFile_append hfile (isStorageFrame_of_accepted hr), trivial⟩
  · simp only [StreamInv, hp, hc', hout, State.finish_variant]
    exact .inr ⟨trivial, .inr ⟨s.out, f, k, hfile, isStorageFrame_of_accepted hr, rfl⟩⟩

/-- BEGIN keeps the stream invariant: outside IDLE it only responds, and in IDLE OUT is empty (R84, R92). -/
theorem exec_begin_streamInv {v : BitVec 2} {s t : State} (h : StreamInv s) (he : exec (.beginRun v) s = .next t) :
    StreamInv t := by
  cases hp : s.phase with
  | halted =>
    cases (exec_begin_of_halted v hp).symm.trans he
    exact (respond_sameRun ..).streamInv h
  | opened =>
    cases (exec_begin_of_opened v hp).symm.trans he
    exact (respond_sameRun ..).streamInv h
  | idle =>
    obtain ⟨hout, hc, -⟩ : s.out = [] ∧ s.haltCause = .notHalted ∧ s.variant = .nb := by
      simpa only [StreamInv, hp] using h
    cases hv : variantOf v with
    | none =>
      cases (exec_begin_of_invalid hp hv).symm.trans he
      exact .inl ⟨rfl, hout⟩
    | some x =>
      obtain rfl := variantOf_eq_some.mp hv
      cases (exec_begin_of_idle x hp).symm.trans he
      exact beginStream_streamInv x hout hc

/-- SUBMIT keeps the stream invariant: outside OPEN it only responds (R86, R92). -/
theorem exec_submit_streamInv {p : List Byte} {s t : State} (h : StreamInv s) (he : exec (.submit p) s = .next t) :
    StreamInv t := by
  obtain ⟨-, rfl⟩ | ⟨-, rfl⟩ | ⟨ho, rfl⟩ := execSubmit_cases he
  · exact (respond_sameRun ..).streamInv h
  · exact (respond_sameRun ..).streamInv h
  · exact finish_submit_streamInv p ho h

/-- Every command keeps the stream invariant: BEGIN and SUBMIT by their effects, and the others have none (R92). -/
theorem exec_streamInv {i : Instr} {s t : State} (hi : i.isCommand = true) (h : StreamInv s)
    (he : exec i s = .next t) : StreamInv t := by
  cases exec_runEffect hi he with
  | same kept => exact kept.streamInv h
  | invalidVariant | begun | magicCut => exact exec_begin_streamInv h he
  | frameAppended | frameCut => exact exec_submit_streamInv h he

/-! ### The machine's invariant between commands -/

/-- The end of a payload command empties the datapath (R24). -/
@[simp] theorem State.finish_datapath (c : Client) (r : TranscodeResult) (s : State) :
    (s.finish c r).datapath = none := by
  obtain ⟨hd, -, -, -⟩ := finish_frame c r s
  exact hd

/-- No command leaves a payload in an empty datapath (R24). -/
theorem exec_datapath {i : Instr} {s t : State} (hi : i.isCommand = true) (hd : s.datapath = none)
    (he : exec i s = .next t) : t.datapath = none := by
  cases i <;> simp only [Instr.isCommand, Bool.false_eq_true] at hi
  case beginRun v =>
    obtain ⟨-, rfl⟩ | ⟨-, rfl⟩ | ⟨-, -, rfl⟩ | ⟨x, -, -, -, rfl⟩ | ⟨x, k, -, -, -, rfl⟩ := execBegin_cases he <;>
      exact hd
  case submit p =>
    obtain ⟨-, rfl⟩ | ⟨-, rfl⟩ | ⟨-, rfl⟩ := execSubmit_cases he
    · exact hd
    · exact hd
    · exact State.finish_datapath ..
  case lookup v ft =>
    obtain ⟨-, rfl⟩ | ⟨x, n, -, -, rfl⟩ | ⟨x, -, -, rfl⟩ := execLookup_cases he <;> exact hd
  case transcode v p =>
    obtain ⟨-, rfl⟩ | ⟨x, -, rfl⟩ := execTranscode_cases he
    · exact hd
    · exact State.finish_datapath ..
  case status =>
    cases he
    exact hd

/-- A command leaves LAST_STATUS NONE only if it is a STATUS before the first command of a run (R18, R90). -/
theorem exec_noCommand {i : Instr} {s t : State} (hi : i.isCommand = true)
    (h : s.lastStatus = .noCommand → s.phase = .idle) (he : exec i s = .next t) :
    t.lastStatus = .noCommand → t.phase = .idle := by
  by_cases hs : i = .status
  · subst hs
    cases he
    exact h
  · obtain ⟨hne, -⟩ := exec_returnsItsStatus hi hs he
    exact fun hn => absurd hn hne

/-- Every command keeps the invariant (R92). -/
theorem exec_inv {i : Instr} {s t : State} (hi : i.isCommand = true) (h : Inv s) (he : exec i s = .next t) : Inv t := by
  obtain ⟨hd, hstatus, hstream⟩ := h
  exact ⟨exec_datapath hi hd he, exec_noCommand hi hstatus he, exec_streamInv hi hstream he⟩

/-- The invariant does not speak of the bytes not yet read. -/
theorem inv_advance {s : State} (rest : List Byte) (h : Inv s) : Inv (s.advance rest) := h

/-- An illegal command word keeps the invariant (R55, R92). -/
theorem inv_illegalCommand {s : State} (h : Inv s) : Inv s.illegalCommand := by
  obtain ⟨hd, -, hstream⟩ := h
  exact ⟨hd, by simp, (respond_sameRun ..).streamInv hstream⟩

/-- A reset gives the invariant from any state, as it leaves nothing of the run (R26, R92, R113). -/
theorem inv_hardReset (run : List Byte) (later : List (List Byte)) (s : State) : Inv (s.hardReset run later) :=
  ⟨rfl, fun _ => rfl, rfl, rfl, rfl⟩

/-! ### The obligations -/

/-- Settles O34: a step is a command, an illegal word, a wait or a reset, and each keeps the invariant; a payload in the
datapath is ruled out by the invariant itself. -/
theorem stepKeepsTheStreamInvariant : Obligations.StepKeepsTheStreamInvariant := by
  intro s t h hs
  have hd : s.datapath = none := h.1
  obtain ⟨d, i, hd', -, -⟩ | ⟨d, hd', -, -⟩ | ⟨i, rest, -, hi, he⟩ | ⟨cw, rest, -, -, rfl⟩ | ⟨-, -, -, rfl⟩ |
    ⟨run, later, -, -, -, rfl⟩ := step_cases hs
  · simp [hd] at hd'
  · simp [hd] at hd'
  · exact exec_inv (decode_isCommand hi) (inv_advance rest h) he
  · exact inv_illegalCommand (inv_advance rest h)
  · exact h
  · exact inv_hardReset run later s

/-- Settles O24: BEGIN by phase, variant code and the sink's answer; its illegal words are those with RSV or FTQ not 0. -/
theorem beginOpensTheRun : Obligations.BeginOpensTheRun := by
  intro s v
  refine ⟨exec_begin_of_halted v, exec_begin_of_opened v, fun hp hv => ?_, ?_, ?_, ?_,
    fun cw rest hop hfields hd hin => ?_⟩
  · exact exec_begin_of_invalid hp (variantOf_eq_none.mpr hv)
  · rintro hp rfl ha
    exact exec_begin_of_idle_of_ok .nb hp ha
  · rintro hp rfl ha
    exact exec_begin_of_idle_of_ok .wb hp ha
  · rintro x k hp rfl ha
    exact ⟨_, (exec_begin_of_idle x hp).trans (congrArg _ (beginStream_of_fail ha))⟩
  · obtain ⟨hp, hlegal⟩ := beginWord_of_op (cwOp_of_masked hop)
    rw [Ne, and_reservedFrameTypeMask_eq_zero_iff] at hfields
    have hl : legalCommand cw = false := by simpa [hlegal] using hfields
    exact step_of_illegal_wordCommand hd hp hl hin

/-- Settles O25: SUBMIT by phase, the transcoder's result and the sink's answer; every word of OP 0x2 but 0x2000 is
illegal. -/
theorem submitAppendsOrDrops : Obligations.SubmitAppendsOrDrops := by
  intro s p
  refine ⟨exec_submit_of_halted p, exec_submit_of_idle p, fun ho hr => ?_, fun ho hr => ?_, fun f ho hr ha => ?_,
    fun f k ho hr ha => ?_, fun cw len q rest hop hne hd hlen hin => ?_⟩
  · rw [exec_submit_of_opened p ho, hr, finish_skipped_eq]
  · rw [exec_submit_of_opened p ho, hr, finish_failed_eq]
  · have hlen := accepted_length hr
    rw [exec_submit_of_opened p ho, hr, finish_submit_ok_eq (by omega) ha]
  · exact ⟨_, by rw [exec_submit_of_opened p ho, hr, finish_submit_fail_eq f ha]⟩
  · obtain ⟨hp, hlegal⟩ := submitWord_of_op (cwOp_of_masked hop)
    exact step_of_illegal_payloadCommand hd hp (Bool.eq_false_iff.mpr (mt hlegal.mp hne)) hlen hin

/-- Settles O43: one SUBMIT adds its frame, if it has one, and the run of a list of them adds theirs in order. -/
theorem framesAppearInSubmitOrder : Obligations.FramesAppearInSubmitOrder :=
  ⟨fun _ _ ho hlen hok => runAll_submits ho ⟨hlen, hok⟩,
    fun _ _ _ hp hout hlen hok => runAll_begin_submits hp hout ⟨hlen, hok⟩⟩

/-- Settles O44: BEGIN leaves the magic header in OUT and in the sink, and dropped payloads leave both as they are; the halt
on an invalid variant touches neither. -/
theorem emptyRunIsTheMagicHeader : Obligations.EmptyRunIsTheMagicHeader := by
  refine ⟨fun x payloads s hp hout ha hdropped => ?_, fun v s hp hout hv => ?_⟩
  · obtain ⟨u, hu, huo, huv, huout, hufile⟩ := exec_begin_leaves_magic x hp hout ha
    obtain ⟨t, ht, hto, htout, htfile⟩ := runAll_dropped huo (by rwa [huv])
    exact ⟨t, by simpa only [runAll, hu] using ht, hto, htout.trans huout, htfile.trans hufile⟩
  · exact ⟨_, exec_begin_of_invalid hp (variantOf_eq_none.mpr hv), rfl, hout, rfl, rfl⟩

/-- Settles O28: STATUS is the one response that writes no state; every word of OP 0x5 but 0x5000 is illegal. -/
theorem statusAnswersStat : Obligations.StatusAnswersStat := by
  refine fun s => ⟨rfl, fun cw rest hop hne hd hin => ?_⟩
  obtain ⟨hp, hlegal⟩ := statusWord_of_op (cwOp_of_masked hop)
  exact step_of_illegal_wordCommand hd hp (Bool.eq_false_iff.mpr (mt hlegal.mp hne)) hin

/-- Settles O35: the reset values of the run's fields. -/
theorem resetMeetsTheStreamInvariant : Obligations.ResetMeetsTheStreamInvariant :=
  inv_hardReset [] [] State.reset

end Sys2Proof.Machine

/-! Errors and the fatal halt, 60_exceptions.md: every step answers a next state (R101), the block waits between commands (R111),
a halted run stays as it is until reset (R100), and a dropped payload leaves nothing but its response (R103). -/

namespace Sys2Proof.Machine

open Sys2Proof Sys2Proof.Safety

/-! ### Waiting -/

/-- With no whole command in the stream the block waits or is reset (R111, R113). -/
theorem step_of_incomplete {s : State} (hd : s.datapath = none) (h : decode s.input = .incomplete) :
    step s = .next s.waitOrReset := by
  simp only [step, hd, h]

/-- With no reset to come the block waits in the state it is in (R111). -/
theorem waitOrReset_of_nil {s : State} (h : s.laterRuns = []) : s.waitOrReset = s := by
  simp only [State.waitOrReset, h]

/-! ### The step answers a next state -/

/-- With a payload in the datapath a step ends that payload's command, whole header word or not (R71, log entry 6). -/
theorem exists_step_of_datapath {s : State} {d : Datapath} (hd : s.datapath = some d) : ∃ t, step s = .next t := by
  cases hi : decodeHeader d.variant d.payload with
  | none => exact ⟨s.runDatapath, by simp only [step, hd, hi]⟩
  | some i => exact ⟨_, (step_of_header hd hi).trans (exec_of_decodeHeader hd hi)⟩

/-- Between commands a step runs a command, rejects an illegal word, waits or is reset (R15, R55, R111, R113). -/
theorem exists_step_between_commands {s : State} (hd : s.datapath = none) : ∃ t, step s = .next t := by
  cases hi : decode s.input with
  | command i rest =>
    rw [step_of_command hd hi]
    exact exec_command_next (decode_isCommand hi) _
  | illegal cw rest => exact ⟨_, step_of_illegal hd hi⟩
  | incomplete => exact ⟨_, step_of_incomplete hd hi⟩

/-! ### HALTED -/

/-- In HALTED no command has an effect on the run: the query commands have none in any phase, and BEGIN and SUBMIT are
refused (R100). -/
theorem exec_sameRun_of_halted {i : Instr} {s t : State} (hi : i.isCommand = true) (hp : s.phase = .halted)
    (he : exec i s = .next t) : SameRun s t := by
  cases exec_runEffect hi he with
  | same kept => exact kept
  | invalidVariant | begun | magicCut =>
    cases (exec_begin_of_halted _ hp).symm.trans he
    exact respond_sameRun ..
  | frameAppended | frameCut =>
    cases (exec_submit_of_halted _ hp).symm.trans he
    exact respond_sameRun ..

/-- In HALTED a step between commands that is no reset keeps the run (R100). -/
theorem step_sameRun_of_halted {s t : State} (hp : s.phase = .halted) (hd : s.datapath = none)
    (hr : ¬ ResetComes s) (h : step s = .next t) : SameRun s t := by
  obtain kept | ⟨i, rest, hi, -⟩ := step_runEffect hd hr h
  · exact kept
  · have kept : SameRun (s.advance rest) t :=
      exec_sameRun_of_halted (decode_isCommand hi) hp ((step_of_command hd hi).symm.trans h)
    exact ⟨kept.phase, kept.variant, kept.haltCause, kept.out, kept.sinkFile, kept.sinkDraws⟩

/-! ### Dropped payloads -/

/-- The end of a dropped payload's command empties the datapath, writes LAST_STATUS and answers 0x1000 or 0x2000, nothing else
(R88). -/
theorem finish_of_dropped (c : Client) {r : TranscodeResult} (s : State) (hr : ∀ f, r ≠ .accepted f) :
    ∃ st answer, s.finish c r = { s with datapath := none, lastStatus := st, responses := s.responses ++ answer } ∧
      (answer = [0x10, 0x00] ∨ answer = [0x20, 0x00]) := by
  cases r with
  | skipped => exact ⟨.skipped, _, finish_skipped_eq c s, .inl rfl⟩
  | failed => exact ⟨.failed, _, finish_failed_eq c s, .inr rfl⟩
  | accepted f => exact absurd rfl (hr f)

/-- The end of a payload command does not look at the datapath, LAST_STATUS or the responses sent: with other values there it
ends in the same state, and adds the same bytes to the responses (R86, R82). -/
theorem finish_of_response (c : Client) (r : TranscodeResult) (s : State) (st : Status) (sent : List Byte) :
    ∃ tail, (s.finish c r).responses = s.responses ++ tail ∧
      { s with datapath := none, lastStatus := st, responses := sent }.finish c r =
        { s.finish c r with responses := sent ++ tail } := by
  cases r with
  | skipped => exact ⟨_, rfl, rfl⟩
  | failed => exact ⟨_, rfl, rfl⟩
  | accepted f =>
    cases c with
    | transcode => exact ⟨_, List.append_assoc .., by simp [finish_transcode, State.respond, State.sendBytes]⟩
    | submit =>
      have same_answer : State.nextAnswer { s with datapath := none, lastStatus := st, responses := sent } =
        State.nextAnswer { s with datapath := none } := rfl
      rw [finish_submit, finish_submit]
      cases ha : State.nextAnswer { s with datapath := none } with
      | ok =>
        rw [appendFrame_of_ok ha, appendFrame_of_ok (same_answer.trans ha)]
        exact ⟨_, rfl, rfl⟩
      | fail k =>
        rw [appendFrame_of_fail ha, appendFrame_of_fail (same_answer.trans ha)]
        exact ⟨_, rfl, rfl⟩

/-! ### The obligations -/

/-- Settles O6: in the middle of a payload command the step ends it; between commands each reading of the stream has its own
next state. -/
theorem everyStepAnswersANextState : Obligations.EveryStepAnswersANextState := by
  intro s
  cases hd : s.datapath with
  | some d => exact exists_step_of_datapath hd
  | none => exact exists_step_between_commands hd

/-- Settles O40: in HALTED a step that is no reset keeps the run, as BEGIN and SUBMIT are refused. -/
theorem haltedLastsUntilReset : Obligations.HaltedLastsUntilReset := by
  intro s hp
  refine ⟨fun t hd hr h => ?_, fun v => exec_begin_of_halted v hp, fun p => exec_submit_of_halted p hp⟩
  have kept := step_sameRun_of_halted hp hd hr h
  exact ⟨kept.phase.trans hp, kept.haltCause, kept.out, kept.variant, kept.sinkFile, kept.sinkDraws⟩

/-- Settles O42: a dropped payload changes LAST_STATUS and the responses alone, and the next SUBMIT looks at neither. -/
theorem droppedPayloadLeavesNoTrace : Obligations.DroppedPayloadLeavesNoTrace := by
  intro s p q ho _ hdropped
  obtain ⟨st, answer, hfinish, hanswer⟩ := finish_of_dropped .submit s hdropped
  obtain ⟨tail, htail, hnext⟩ := finish_of_response .submit (transcode s.variant q) s st (s.responses ++ answer)
  exact ⟨_, _, _, (exec_submit_of_opened p ho).trans (congrArg _ hfinish), ho, exec_submit_of_opened q ho,
    exec_submit_of_opened q ho, answer, tail, hnext, htail, hanswer⟩

/-- Settles O3: the block waits, as no reset comes. -/
theorem waitingKeepsAllState : Obligations.WaitingKeepsAllState := by
  intro s hd hi hl
  rw [step_of_incomplete hd hi, waitOrReset_of_nil hl]

end Sys2Proof.Machine

/-! Reset during a run, 70_reset_and_hazards.md: the sink's bytes outlive it (R114), and the host goes on with the next run's
bytes (R113). -/

namespace Sys2Proof.Machine

open Sys2Proof Sys2Proof.Safety

/-- With a later run to come the block is reset, and the host sends that run's bytes next (R113). -/
theorem waitOrReset_of_cons {s : State} {run : List Byte} {later : List (List Byte)} (h : s.laterRuns = run :: later) :
    s.waitOrReset = s.hardReset run later := by
  simp only [State.waitOrReset, h]

/-- Settles O2: the step is the `hardReset` to the first later run, which writes neither the sink nor the responses. -/
theorem resetKeepsTheSink : Obligations.ResetKeepsTheSink := by
  intro s run later hd hi hl
  have reset_step : step s = .next (s.hardReset run later) := by
    rw [step_of_incomplete hd hi, waitOrReset_of_cons hl]
  exact ⟨_, reset_step, State.hardReset_sinkFile .., State.hardReset_sinkScript .., State.hardReset_sinkDraws ..,
    State.hardReset_responses .., State.hardReset_input .., State.hardReset_laterRuns ..⟩

end Sys2Proof.Machine
